-- ==== Sys2Proof/Word.lean ====
section
/-! DEFINITION. The word types of the block (00_scope.md R9, 20_memory.md R50). -/

namespace Sys2Proof

/-- A byte is 8 bits (R9). -/
abbrev Byte := BitVec 8

/-- A word is 32 bits (R9). -/
abbrev Word := BitVec 32

/-- A byte offset of the block's offset space is 25 bits (R50). -/
abbrev Offset := BitVec 25

end Sys2Proof
end

