-- ==== Sys2Proof/Syntax.lean ====
section
/-! DEFINITION. The commands of the block, one constructor per row of opcode_table.json (30_encoding.md R71). -/

namespace Sys2Proof

/-- A legal command. "No command word carries an operand, immediate, register number or mode field" (R74), so no
constructor has an argument. -/
inductive Instr where
  /-- NOP, word 0x00000000 (43_control.md R161) -/
  | nop
  /-- EMBED, word 0x00000001 (41_embedder.md R124) -/
  | embed
  /-- EXTRACT, word 0x00000002 (42_extractor.md R147) -/
  | extract
  /-- TENC, word 0x00000003 (40_transport_codec.md R106) -/
  | tenc
  /-- TDEC, word 0x00000004 (40_transport_codec.md R107) -/
  | tdec
deriving DecidableEq, Repr

end Sys2Proof
end

