-- ==== Sys2Proof/Decode.lean ====
section
/-! DEFINITION. From a command word to a command and back (30_encoding.md R70 to R73). The decoder is total on the
32-bit words; it rejects a word by the name of what is reserved in it. -/

namespace Sys2Proof

/-- Why a word is not one of the five legal ones (R72). Both kinds complete with ILLEGAL_COMMAND (R162): the block
does not tell them apart, the names serve the reader (log 8). -/
inductive DecodeError where
  /-- `RSV ≠ 0`, "whatever its OP" -/
  | reservedBits (rsv : BitVec 28)
  /-- `RSV = 0` and `OP ∈ {0x5, ..., 0xF}` -/
  | reservedOpcode (op : BitVec 4)
deriving DecidableEq, Repr

/-- OP, bits 3:0 of a command word (R70). -/
def opField (w : Word) : BitVec 4 := w.extractLsb' 0 4

/-- RSV, bits 31:4 of a command word (R70). -/
def rsvField (w : Word) : BitVec 28 := w.extractLsb' 4 28

/-- The opcode map of R71, for a word whose RSV is 0. -/
def decodeOp (op : BitVec 4) : Except DecodeError Instr :=
  if op = 0x0#4 then .ok .nop
  else if op = 0x1#4 then .ok .embed
  else if op = 0x2#4 then .ok .extract
  else if op = 0x3#4 then .ok .tenc
  else if op = 0x4#4 then .ok .tdec
  else .error (.reservedOpcode op)

/-- Decode a command word (R70 to R72). -/
def decode (w : Word) : Except DecodeError Instr :=
  if rsvField w = 0#28 then decodeOp (opField w) else .error (.reservedBits (rsvField w))

/-- The OP value of a command (R71). -/
def encodeOp : Instr → BitVec 4
  | .nop => 0x0#4
  | .embed => 0x1#4
  | .extract => 0x2#4
  | .tenc => 0x3#4
  | .tdec => 0x4#4

/-- The word of a command: RSV = 0 above its OP (R70, R71). -/
def encode (i : Instr) : Word := 0#28 ++ encodeOp i

/-- The command word whose bits are `w`, of which the opcode table gives `nbits`; every bit above them is 0. -/
def tableWord (nbits w : Nat) : Word := BitVec.ofNat 32 (w % 2 ^ nbits)

/-- What the decoder reads from a word numbered as opcode_table.json numbers it: bit 0 is the least significant bit
of the one 32-bit word a command has (R70, R79). -/
def decodeTableWord (nbits w : Nat) : Option Instr :=
  match decode (tableWord nbits w) with
  | .ok i => some i
  | .error _ => none

end Sys2Proof
end

