-- ==== Sys2Proof/Config.lean ====
section
/-! DEFINITION. What one build of the block fixes (00_scope.md R6, R7) and the free values of the model
(43_control.md R165, 70_reset_and_hazards.md R232). -/

namespace Sys2Proof

/-- The three memories of the block (10_state.md R31, R32). -/
inductive Bank where
  /-- the pixel memory, `MAX_PIXELS` words -/
  | pix
  /-- the byte memory, `MAX_BYTES` bytes -/
  | bytes
  /-- the text memory, `MAX_TEXT` bytes -/
  | text
deriving DecidableEq, Repr

/-- The build's parameters, with the spec's defaults (R6). They are data, so that a claim can be made for every
build; `Params.Legal` is the constraint of R6 and R7. -/
structure Params where
  /-- `MAX_PIXELS`, the number of pixel words of PIX -/
  maxPixels : Nat := 65536
  /-- `MAX_BYTES`, the number of bytes of BYTES -/
  maxBytes : Nat := 18432
deriving DecidableEq, Repr

/-- The default build of R6. -/
def Params.default : Params := {}

/-- `MAX_TEXT = 4 * MAX_BYTES / 3`, the number of bytes of TEXT (R6). -/
def Params.maxText (p : Params) : Nat := 4 * p.maxBytes / 3

/-- `MAXCH(P)`: the largest number of characters that can stand before a sentinel in `pixels` pixels (R7). The
subtraction is cut off at 0, as the rule's `max` says. -/
def Config.maxCh (pixels : Nat) : Nat := (3 * pixels - 16) / 8

/-- `MAXDEC(P)`: the largest number of bytes that so many characters decode to (R7). -/
def Config.maxDec (pixels : Nat) : Nat := 3 * (Config.maxCh pixels / 4)

/-- `BASE`, the platform address of offset 0. OPEN in R6: the platform chooses it and the block never reads it. -/
opaque Config.base : Nat

/-- FREE VALUE. The byte that location `index` of `bank` holds after reset number `epoch` until it is written
(R232: "one free value per location, fixed until the location is written"). -/
opaque Config.resetByte (epoch : Nat) (bank : Bank) (index : Nat) : Byte

/-- FREE VALUE. The data of the `n`-th draw of a HOST read while busy (R165 item 2: "any 32-bit value, chosen anew
at each read"). -/
opaque Config.draw32 (n : Nat) : Word

/-- FREE VALUE. The XSTATE, less 1, of the `n`-th draw by a HOST read of STATUS while an EXTRACT is pending (R165
item 3: "a draw from 1 to 6"). -/
opaque Config.drawXState (n : Nat) : Fin 6

end Sys2Proof
end

