-- ==== Sys2Proof/Machine/State.lean ====
section
/-! DEFINITION. The state of the block (10_state.md R39), what the HOST and the reset input still have to do, and the
state after reset (70_reset_and_hazards.md R230). Plain data throughout. -/

namespace Sys2Proof.Machine

/-- XSTATE (10_state.md R25). The reserved value 7 is never produced, so it has no constructor. -/
inductive XState where
  | idle
  | scanning
  | sentinelFound
  | decoding
  | done
  | exhausted
  | failed
deriving DecidableEq, Repr

/-- The completion codes (10_state.md R26). The reserved values 6 to 15 are never produced. -/
inductive ErrCode where
  | none
  | capacityExceeded
  | sentinelNotFound
  | malformedPayload
  | illegalCommand
  | lengthInvalid
deriving DecidableEq, Repr

/-- STATUS (10_state.md R24), field by field; `Status.word` is the word a HOST reads. No HOST write reaches it. -/
structure Status where
  /-- bit 0: an accepted command has not completed -/
  busy : Bool
  /-- bit 1: the last command has completed -/
  done : Bool
  /-- bit 2: the last completed command ended with an error -/
  err : Bool
  /-- bit 3: sticky, a HOST write arrived while busy -/
  busywr : Bool
  /-- bits 6:4: the extractor state -/
  xstate : XState
deriving DecidableEq, Repr

/-- RD or WR (30_encoding.md R75). -/
inductive Kind where
  | rd
  | wr
deriving DecidableEq, Repr

/-- A HOST transaction's request (R75): `wdata` is ignored for RD. -/
structure Request where
  kind : Kind
  offset : Offset
  wdata : Word
deriving DecidableEq, Repr

/-- OK or ERR (R75). -/
inductive Resp where
  | ok
  | err
deriving DecidableEq, Repr

/-- The block's one answer to a request (R75). -/
structure Response where
  resp : Resp
  rdata : Word
deriving DecidableEq, Repr

/-- One thing the HOST does: a transaction, or a `WAIT` loop (30_encoding.md R81, R82). -/
inductive HostOp where
  | request (r : Request)
  /-- RD STATUS, repeated until its result has bit 0 = 0 -/
  | wait
deriving DecidableEq, Repr

/-- Whose turn the next step is: "one interleaving of HOST transactions and at most one ENGINE step per accepted
command" (20_memory.md R60), with a reset at any time (70_reset_and_hazards.md R230). -/
inductive Turn where
  | host
  | engine
  | reset
deriving DecidableEq, Repr

/-- One of the block's memories: the bytes written since the last reset, by byte index, addresses strictly rising
(`Mem.wf`). An index that is not listed holds no written value; what it reads as is the free value
`Config.resetByte` (log 3). -/
abbrev Mem := List Host.Cell

/-- The machine: the tuple of 10_state.md R39, the build's parameters, and the model's own fields (log 1, 2, 5). -/
structure State where
  /-- the build's parameters (00_scope.md R6); no step changes them -/
  params : Params
  /-- STATUS (R24) -/
  status : Status
  /-- ERRCODE (R26) -/
  errcode : ErrCode
  /-- PIXCNT (R27) -/
  pixcnt : Word
  /-- BLEN (R28) -/
  blen : Word
  /-- TLEN (R29) -/
  tlen : Word
  /-- BITS, its 24 stored bits (R30) -/
  bits : BitVec 24
  /-- PENDING, the ENGINE's command latch (R34) -/
  pending : Option Word
  /-- PIX (R31), channel `c` of pixel `p` at index `4p + c` (20_memory.md R53) -/
  pix : Mem
  /-- BYTES (R32) -/
  bytes : Mem
  /-- TEXT (R32) -/
  text : Mem
  /-- the model's own: how many resets have happened, the index of the free memory contents -/
  resets : Nat
  /-- the model's own: how many draws HOST reads have taken, the index of the next draw -/
  draws : Nat
  /-- the model's own: what the HOST will still do, first thing first -/
  host : List HostOp
  /-- the model's own: whose turns come next -/
  turns : List Turn
  /-- the model's own: the responses the HOST has received, oldest first -/
  responses : List Response
deriving DecidableEq, Repr

/-- The faults of a step. There is none: "An error is not a trap" (60_exceptions.md R204), a bad access is an ERR
response (R201), and "a command never blocks, waits or hangs" (43_control.md R166). Nothing raises one (log 15). -/
inductive Fault where
deriving DecidableEq, Repr

/-- The refusals of a step. -/
inductive Refusal where
  /-- A command without a meaning, raised by an arm of `exec` only; safe, since the run stops. No arm raises it:
  every command has its meaning. -/
  | notModelled (mnemonic : String)
deriving DecidableEq, Repr

/-- The outcome of a command or a step of this machine. -/
abbrev Result := Host.Outcome State Fault Refusal

/-- STATUS after reset: all fields 0, XSTATE IDLE (70_reset_and_hazards.md R230). -/
def Status.reset : Status :=
  { busy := false, done := false, err := false, busywr := false, xstate := .idle }

/-- The state after power-on reset of a build (R230), with its memories unspecified (R232). -/
def State.resetWith (p : Params) : State :=
  { params := p, status := Status.reset, errcode := .none, pixcnt := 0, blen := 0, tlen := 0, bits := 0,
    pending := none, pix := [], bytes := [], text := [],
    resets := 0, draws := 0, host := [], turns := [], responses := [] }

/-- The machine right after reset, in the default build of 00_scope.md R6. -/
def State.reset : State := State.resetWith Params.default

end Sys2Proof.Machine
end

