-- ==== Sys2Proof/Machine/Flags.lean ====
section
/-! DEFINITION. The flags: every way STATUS changes, and the words STATUS and ERRCODE read as (10_state.md R24 to
R26, 00_scope.md R12, 43_control.md R160, R165). -/

namespace Sys2Proof.Machine

/-- The value of XSTATE (R25). -/
def XState.code : XState → BitVec 3
  | .idle => 0
  | .scanning => 1
  | .sentinelFound => 2
  | .decoding => 3
  | .done => 4
  | .exhausted => 5
  | .failed => 6

/-- The value of a completion code (R26). -/
def ErrCode.code : ErrCode → BitVec 4
  | .none => 0
  | .capacityExceeded => 1
  | .sentinelNotFound => 2
  | .malformedPayload => 3
  | .illegalCommand => 4
  | .lengthInvalid => 5

/-- A one-bit field as a word. -/
def bitWord (b : Bool) : Word := (BitVec.ofBool b).setWidth 32

/-- STATUS as a word: `zext_32(XSTATE<<4 | BUSYWR<<3 | ERR<<2 | DONE<<1 | BUSY)` (43_control.md R163). -/
def Status.word (st : Status) : Word :=
  (st.xstate.code.setWidth 32 <<< 4) ||| (bitWord st.busywr <<< 3) ||| (bitWord st.err <<< 2) |||
    (bitWord st.done <<< 1) ||| bitWord st.busy

/-- ERRCODE as a word: `zext_32(ERRCODE[3:0])` (43_control.md R163). -/
def ErrCode.word (e : ErrCode) : Word := e.code.setWidth 32

/-- The STATUS part of `finish(E)`: ERR says whether `E ≠ NONE`, DONE is set, BUSY is cleared (00_scope.md R12). -/
def Status.finish (st : Status) (e : ErrCode) : Status :=
  { st with err := decide (e ≠ .none), done := true, busy := false }

/-- The STATUS part of a command issue (43_control.md R160). -/
def Status.issue (_ : Status) : Status :=
  { busy := true, done := false, err := false, busywr := false, xstate := .idle }

/-- The STATUS part of a HOST write while busy: the sticky BUSYWR (43_control.md R165 item 1). -/
def Status.lostWrite (st : Status) : Status := { st with busywr := true }

/-- The XSTATE that the `n`-th draw shows: one of the values 1 to 6 (43_control.md R165 item 3). -/
def XState.drawn (n : Nat) : XState :=
  match Config.drawXState n with
  | 0 => .scanning
  | 1 => .sentinelFound
  | 2 => .decoding
  | 3 => .done
  | 4 => .exhausted
  | 5 => .failed

end Sys2Proof.Machine
end

