-- ==== Sys2Proof/Machine/Ops.lean ====
section
/-! DEFINITION. The named operations over memories and registers (00_scope.md R11), the completion of a command with
or without an error (R12, 60_exceptions.md R204), the issue of a command (43_control.md R160) and the reset
(70_reset_and_hazards.md R230 to R233). -/

namespace Sys2Proof.Machine

/-! ### One memory as a list of written bytes -/

/-- The byte last written at an index, if one has been written. -/
def Mem.read? : Mem → Nat → Option Byte
  | [], _ => none
  | (b, v) :: m, a => if a = b then some v else Mem.read? m a

/-- Write one byte, keeping the addresses strictly rising. -/
def Mem.write : Mem → Nat → Byte → Mem
  | [], a, v => [(a, v)]
  | (b, w) :: m, a, v =>
    if a < b then (a, v) :: (b, w) :: m
    else if a = b then (a, v) :: m
    else (b, w) :: Mem.write m a v

/-- Write bytes at rising indexes from `a`. -/
def Mem.writeAll : Mem → Nat → List Byte → Mem
  | m, _, [] => m
  | m, a, v :: vs => Mem.writeAll (Mem.write m a v) (a + 1) vs

/-- Every address of the list is at least `lo`, and they rise strictly. -/
def Mem.risesFrom : Nat → Mem → Bool
  | _, [] => true
  | lo, (a, _) :: m => decide (lo ≤ a) && Mem.risesFrom (a + 1) m

/-- The canonical form: addresses strictly rising. No entry can equal what an unlisted address holds, since that is
"nothing written" (log 3). -/
def Mem.wf (m : Mem) : Bool := Mem.risesFrom 0 m

/-- Every listed address lies below `n`, the size of the memory in bytes. -/
def Mem.below (n : Nat) (m : Mem) : Bool := m.all fun c => decide (c.1 < n)

/-! ### The memories of the state -/

/-- The list of written bytes of a memory. -/
def State.bank (s : State) : Bank → Mem
  | .pix => s.pix
  | .bytes => s.bytes
  | .text => s.text

/-- Replace the list of written bytes of a memory. -/
def State.setBank (s : State) (b : Bank) (m : Mem) : State :=
  match b with
  | .pix => { s with pix := m }
  | .bytes => { s with bytes := m }
  | .text => { s with text := m }

/-- The size of a memory in bytes (00_scope.md R6). -/
def Params.bankSize (p : Params) : Bank → Nat
  | .pix => 4 * p.maxPixels
  | .bytes => p.maxBytes
  | .text => p.maxText

/-- What index `a` holds in a memory whose written bytes are `m`: the byte last written there, and until one is
written the free value of the last reset (70_reset_and_hazards.md R232, 20_memory.md R65). -/
def Mem.byteAt (epoch : Nat) (b : Bank) (m : Mem) (a : Nat) : Byte :=
  match Mem.read? m a with
  | some v => v
  | none => Config.resetByte epoch b a

/-- Read one byte of a memory: `BYTES[i]`, `TEXT[i]`, or byte `4p + c` of PIX (00_scope.md R11). -/
def State.byteAt (s : State) (b : Bank) (a : Nat) : Byte := Mem.byteAt s.resets b (s.bank b) a

/-- `CH(p, c)`: channel `c` of `PIX[p]` (00_scope.md R11, 20_memory.md R53). -/
def State.ch (s : State) (p c : Nat) : Byte := s.byteAt .pix (4 * p + c)

/-- `M[0..n)` for the byte memory `M` (00_scope.md R11). -/
def State.prefixOf (s : State) (b : Bank) (n : Nat) : List Byte := (List.range n).map (s.byteAt b)

/-- Write bytes into a memory at rising indexes from `a`. -/
def State.writeBytes (s : State) (b : Bank) (a : Nat) (vs : List Byte) : State :=
  s.setBank b (Mem.writeAll (s.bank b) a vs)

/-! ### Words of a window: little-endian in every window (20_memory.md R53, R54, R57) -/

/-- Byte `j` of a word, bits `[8j+7 : 8j]`. -/
def wordByte (v : Word) (j : Nat) : Byte := v.extractLsb' (8 * j) 8

/-- The four bytes of a word, byte 0 first. -/
def wordBytes (v : Word) : List Byte := [wordByte v 0, wordByte v 1, wordByte v 2, wordByte v 3]

/-- The word `b3<<24 | b2<<16 | b1<<8 | b0`. -/
def bytesWord (b0 b1 b2 b3 : Byte) : Word :=
  (b3.setWidth 32 <<< 24) ||| (b2.setWidth 32 <<< 16) ||| (b1.setWidth 32 <<< 8) ||| b0.setWidth 32

/-- Word `w` of a memory: bytes `4w` to `4w+3`; for PIX, `PIX[w]`. -/
def State.readWord (s : State) (b : Bank) (w : Nat) : Word :=
  bytesWord (s.byteAt b (4 * w)) (s.byteAt b (4 * w + 1)) (s.byteAt b (4 * w + 2)) (s.byteAt b (4 * w + 3))

/-- Write word `w` of a memory: all four bytes. -/
def State.writeWord (s : State) (b : Bank) (w : Nat) (v : Word) : State := s.writeBytes b (4 * w) (wordBytes v)

/-! ### Registers -/

/-- `REG.STATUS.XSTATE <- x`. -/
def State.setXState (s : State) (x : XState) : State := { s with status := { s.status with xstate := x } }

/-- `REG.BITS <- n`. Every count a legal build computes is below 2^24 (10_state.md R30). -/
def State.setBits (s : State) (n : Nat) : State := { s with bits := BitVec.ofNat 24 n }

/-- `REG.BLEN <- n`, a length as a 32-bit number. -/
def State.setBlen (s : State) (n : Nat) : State := { s with blen := BitVec.ofNat 32 n }

/-- `REG.TLEN <- n`, a length as a 32-bit number. -/
def State.setTlen (s : State) (n : Nat) : State := { s with tlen := BitVec.ofNat 32 n }

/-! ### Completion, issue, reset -/

/-- `finish(E)`, "as one update" (00_scope.md R12). This is the block's whole "trap entry" (60_exceptions.md R204):
no state is saved, control goes nowhere. There is no return-from-error operation beside it (R206). -/
def State.finish (s : State) (e : ErrCode) : State := { s with errcode := e, status := s.status.finish e }

/-- A command that reaches its end without `raise` performs `finish(NONE)` (00_scope.md R12). -/
def complete (s : State) : Result := .next (s.finish .none)

/-- `raise E`: `finish(E)` and the end of the command; what was written before stays written (00_scope.md R12). -/
def raise (s : State) (e : ErrCode) : Result := .next (s.finish e)

/-- An illegal command: `raise ILLEGAL_COMMAND` and nothing else (43_control.md R162). -/
def illegalCommand (s : State) : Result := raise s .illegalCommand

/-- Command issue: the one update of 43_control.md R160. Every word is accepted. -/
def issue (s : State) (w : Word) : State :=
  { s with pending := some w, status := s.status.issue, errcode := .none }

/-- The end of the ENGINE step: `PENDING <- none` (43_control.md R166). -/
def retire (s : State) : State := { s with pending := none }

/-- One pulse of `rst`: registers as R230 says, an abandoned command never completes (R233), and every byte of the
three memories unspecified anew (R232). What the HOST and the other agents still do is outside the block. -/
def resetBlock (s : State) : State :=
  { s with
    status := Status.reset, errcode := .none, pixcnt := 0, blen := 0, tlen := 0, bits := 0, pending := none,
    pix := [], bytes := [], text := [], resets := s.resets + 1 }

/-- The `busy` port equals STATUS.BUSY (43_control.md R167). -/
def State.busyPort (s : State) : Bool := s.status.busy

end Sys2Proof.Machine
end

