-- ==== Sys2Proof/Machine/Operands.lean ====
section
/-! DEFINITION. The operand forms. Command operands are implicit (30_encoding.md R74): lengths read as full 32-bit
unsigned numbers, byte sequences from index 0, and the carrier bits of the pixel buffer by bit position (R78). -/

namespace Sys2Proof.Machine

/-- The message `BYTES[0..BLEN)` (30_encoding.md R74, 41_embedder.md R120). -/
def State.message (s : State) : List Byte := s.prefixOf .bytes s.blen.toNat

/-- The characters `TEXT[0..TLEN)` (30_encoding.md R74, 40_transport_codec.md R107). -/
def State.textIn (s : State) : List Byte := s.prefixOf .text s.tlen.toNat

/-- The number of carriers of the pixel buffer, `3 * PIXCNT` (41_embedder.md R121). -/
def State.carriers (s : State) : Nat := 3 * s.pixcnt.toNat

/-- The index in PIX of the carrier of bit position `k`: channel `k mod 3` of pixel `k div 3` (10_state.md R35). -/
def carrierIndex (k : Nat) : Nat := 4 * (k / 3) + k % 3

/-- The bit of position `k`: `CH(k div 3, k mod 3)[0]` (42_extractor.md R140). -/
def State.lsb (s : State) (k : Nat) : Bool := (s.ch (k / 3) (k % 3)).getLsbD 0

end Sys2Proof.Machine
end

