-- ==== Sys2Proof/Machine/Bus.lean ====
section
/-! DEFINITION. The HOST's transactions: the address map (20_memory.md R51, R52), RD and WR (43_control.md R163, R164)
and what they do while the ENGINE is busy (R165). -/

namespace Sys2Proof.Machine

/-- The control registers, in the order of their offsets (10_state.md R22). -/
inductive Reg where
  | cmd
  | status
  | errcode
  | pixcnt
  | blen
  | tlen
  | bits
deriving DecidableEq, Repr

/-- What a mapped offset names (20_memory.md R51): a register, or a word of a memory (for PIX, a pixel). -/
inductive Target where
  | reg (r : Reg)
  | word (b : Bank) (w : Nat)
deriving DecidableEq, Repr

/-- The register at an offset of the REG window, if there is one (10_state.md R22). -/
def regAt : Nat → Option Reg
  | 0x000 => some .cmd
  | 0x004 => some .status
  | 0x008 => some .errcode
  | 0x00C => some .pixcnt
  | 0x010 => some .blen
  | 0x014 => some .tlen
  | 0x018 => some .bits
  | _ => none

/-- The first offset of a memory's window (20_memory.md R51). -/
def windowBase : Bank → Nat
  | .bytes => 0x0100000
  | .text => 0x0200000
  | .pix => 0x1000000

/-- Is an offset among the mapped ones of a memory's window (20_memory.md R51)? -/
def inWindow (p : Params) (b : Bank) (o : Nat) : Bool :=
  decide (windowBase b ≤ o) && decide (o < windowBase b + Params.bankSize p b)

/-- The word of a memory's window that an offset names. -/
def windowWord (b : Bank) (o : Nat) : Target := .word b ((o - windowBase b) / 4)

/-- The address map: what an offset names, none where it is misaligned or unmapped (20_memory.md R51, R52). -/
def decodeOffset (p : Params) (offset : Offset) : Option Target :=
  let o := offset.toNat
  if o % 4 ≠ 0 then none
  else
    match regAt o with
    | some r => some (.reg r)
    | none =>
      if inWindow p .bytes o then some (windowWord .bytes o)
      else if inWindow p .text o then some (windowWord .text o)
      else if inWindow p .pix o then some (windowWord .pix o)
      else none

/-- The platform address of an offset: offset 0 stands at `BASE` (20_memory.md R50). The block never uses it. -/
def platformAddress (offset : Offset) : Nat := Config.base + offset.toNat

/-- The command a pending word stands for, if one is pending and its word is legal (10_state.md R34). -/
def State.pendingInstr (s : State) : Option Instr :=
  match s.pending with
  | none => none
  | some w =>
    match decode w with
    | .ok i => some i
    | .error _ => none

/-- `WSET(PENDING)`: what the pending command may write (43_control.md R165). -/
def inWset (i : Option Instr) (t : Target) : Bool :=
  match t with
  | .reg .errcode => true
  | .reg .bits => decide (i = some .embed ∨ i = some .extract)
  | .reg .blen => decide (i = some .extract ∨ i = some .tdec)
  | .reg .tlen => decide (i = some .tenc)
  | .word .pix _ => decide (i = some .embed)
  | .word .bytes _ => decide (i = some .extract ∨ i = some .tdec)
  | .word .text _ => decide (i = some .tenc)
  | .reg .cmd | .reg .status | .reg .pixcnt => false

/-- The stored value of a target (43_control.md R163). -/
def State.stored (s : State) : Target → Word
  | .reg .cmd => 0#32
  | .reg .status => s.status.word
  | .reg .errcode => s.errcode.word
  | .reg .pixcnt => s.pixcnt
  | .reg .blen => s.blen
  | .reg .tlen => s.tlen
  | .reg .bits => s.bits.setWidth 32
  | .word b w => s.readWord b w

/-- The answer OK with data. -/
def okData (v : Word) : Response := { resp := .ok, rdata := v }

/-- The answer ERR: data 0 (20_memory.md R52, 30_encoding.md R75). -/
def errResponse : Response := { resp := .err, rdata := 0#32 }

/-- One draw has been taken: the next is a new one. -/
def State.drawn (s : State) : State := { s with draws := s.draws + 1 }

/-- A read of STATUS while busy: BUSY = 1, DONE = 0, ERR = 0, the current BUSYWR, and XSTATE IDLE unless EXTRACT is
pending, when it is a draw (43_control.md R165 item 3). -/
def busyStatusRead (s : State) : Response × State :=
  let st : Status := { busy := true, done := false, err := false, busywr := s.status.busywr, xstate := .idle }
  if s.pendingInstr = some .extract then
    (okData { st with xstate := XState.drawn s.draws }.word, s.drawn)
  else (okData st.word, s)

/-- A read of a mapped target while busy (43_control.md R165 items 2 to 4). -/
def busyRead (s : State) (t : Target) : Response × State :=
  if inWset s.pendingInstr t then (okData (Config.draw32 s.draws), s.drawn)
  else if t = .reg .status then busyStatusRead s
  else (okData (s.stored t), s)

/-- HOST read `RD(o)` (43_control.md R163): the answer and the state after it. -/
def hostRead (s : State) (o : Offset) : Response × State :=
  match decodeOffset s.params o with
  | none => (errResponse, s)
  | some t => if s.status.busy then busyRead s t else (okData (s.stored t), s)

/-- What an idle HOST write to a mapped target does (43_control.md R164). -/
def idleWrite (s : State) (t : Target) (v : Word) : State :=
  match t with
  | .reg .cmd => issue s v
  | .reg .status => s
  | .reg .errcode => s
  | .reg .bits => s
  | .reg .pixcnt => { s with pixcnt := v }
  | .reg .blen => { s with blen := v }
  | .reg .tlen => { s with tlen := v }
  | .word b w => s.writeWord b w v

/-- A HOST write while busy: nothing but BUSYWR (43_control.md R165 item 1). -/
def lostWrite (s : State) : State := { s with status := s.status.lostWrite }

/-- HOST write `WR(o, v)` (43_control.md R164): the answer and the state after it. -/
def hostWrite (s : State) (o : Offset) (v : Word) : Response × State :=
  match decodeOffset s.params o with
  | none => (errResponse, s)
  | some t => if s.status.busy then (okData 0#32, lostWrite s) else (okData 0#32, idleWrite s t v)

/-- One transaction (30_encoding.md R75): `wdata` is ignored for RD. -/
def transact (s : State) (r : Request) : Response × State :=
  match r.kind with
  | .rd => hostRead s r.offset
  | .wr => hostWrite s r.offset r.wdata

/-- The offset of STATUS (10_state.md R22). -/
def statusOffset : Offset := 0x0000004#25

/-- The request a HOST operation makes; `WAIT` is encoded as `(RD, 0x0000004, 0)` (30_encoding.md R82). -/
def HostOp.toRequest : HostOp → Request
  | .request r => r
  | .wait => { kind := .rd, offset := statusOffset, wdata := 0#32 }

/-- Does the HOST go on to its next operation after this response? A `WAIT` loop ends at the response with bit 0 = 0
(30_encoding.md R81, R82). -/
def HostOp.isOver (op : HostOp) (rsp : Response) : Bool :=
  match op with
  | .request _ => true
  | .wait => !rsp.rdata.getLsbD 0

/-- The HOST has received a response: its remaining operations, and the record of responses, in request order
(20_memory.md R60, 43_control.md R167). -/
def deliver (s : State) (rest : List HostOp) (rsp : Response) : State :=
  { s with host := rest, responses := s.responses ++ [rsp] }

/-- The HOST's turn: its next transaction, performed and answered (20_memory.md R60); nothing when it has none. -/
def hostTurn (s : State) : State :=
  match s.host with
  | [] => s
  | op :: rest =>
    let answer := transact s op.toRequest
    deliver answer.2 (if op.isOver answer.1 then rest else op :: rest) answer.1

end Sys2Proof.Machine
end

