-- ==== Sys2Proof/Machine/Control.lean ====
section
/-! DEFINITION. The control family's command NOP (43_control.md R161). Its other rules: the illegal command R162 is
`illegalCommand`, the issue R160 is `issue` (Machine/Ops.lean). -/

namespace Sys2Proof.Machine

/-- NOP: `finish(NONE)` (R161). -/
def execNop (s : State) : Result := complete s

end Sys2Proof.Machine
end

