-- ==== Sys2Proof/Machine/Codec.lean ====
section
/-! DEFINITION. The Transport Codec: `B64Enc`, `B64Valid`, `B64Dec` and the commands TENC and TDEC
(40_transport_codec.md). The tables are the spec's supplement from general knowledge (log 12). -/

namespace Sys2Proof.Machine

/-- The pad byte `=` (R100). -/
def padByte : Byte := 0x3D#8

/-- `sym(v)`: the byte of symbol value `v` (R100). -/
def sym (v : BitVec 6) : Byte :=
  let x : Byte := v.setWidth 8
  if v.toNat ≤ 25 then 0x41#8 + x
  else if v.toNat ≤ 51 then 0x61#8 + (x - 26#8)
  else if v.toNat ≤ 61 then 0x30#8 + (x - 52#8)
  else if v.toNat = 62 then 0x2B#8
  else 0x2F#8

/-- `val(s)`: the value of a symbol byte, none outside the alphabet `A` (R100). -/
def val? (s : Byte) : Option (BitVec 6) :=
  if 0x41 ≤ s.toNat ∧ s.toNat ≤ 0x5A then some ((s - 0x41#8).setWidth 6)
  else if 0x61 ≤ s.toNat ∧ s.toNat ≤ 0x7A then some ((s - 0x61#8 + 26#8).setWidth 6)
  else if 0x30 ≤ s.toNat ∧ s.toNat ≤ 0x39 then some ((s - 0x30#8 + 52#8).setWidth 6)
  else if s = 0x2B#8 then some 62#6
  else if s = 0x2F#8 then some 63#6
  else none

/-- `s ∈ A`. -/
def isSym (s : Byte) : Bool := (val? s).isSome

/-- The value of a byte of a quartet: 0 for the pad (R104). -/
def quartetVal (s : Byte) : BitVec 6 := (val? s).getD 0#6

/-- The four characters of a group's 24 bits `x`, most significant 6 bits first (R101). -/
def groupSyms (x : BitVec 24) : Byte × Byte × Byte × Byte :=
  (sym (x.extractLsb' 18 6), sym (x.extractLsb' 12 6), sym (x.extractLsb' 6 6), sym (x.extractLsb' 0 6))

/-- `b0 << 16 | b1 << 8 | b2`, 24 bits (R101). -/
def groupBits (b0 b1 b2 : Byte) : BitVec 24 :=
  (b0.setWidth 24 <<< 16) ||| (b1.setWidth 24 <<< 8) ||| b2.setWidth 24

/-- `B64Enc` (R101): groups of three bytes; a last group of one or two is padded. -/
def b64Enc : List Byte → List Byte
  | [] => []
  | [b0] =>
    let (c0, c1, _, _) := groupSyms (groupBits b0 0#8 0#8)
    [c0, c1, padByte, padByte]
  | [b0, b1] =>
    let (c0, c1, c2, _) := groupSyms (groupBits b0 b1 0#8)
    [c0, c1, c2, padByte]
  | b0 :: b1 :: b2 :: rest =>
    let (c0, c1, c2, c3) := groupSyms (groupBits b0 b1 b2)
    c0 :: c1 :: c2 :: c3 :: b64Enc rest

/-- Condition 3 of R103 on the last quartet: cases (a), (b) and (c). -/
def lastQuartetValid : List Byte → Bool
  | [q0, q1, q2, q3] =>
    isSym q0 && isSym q1 &&
      ((isSym q2 && isSym q3) ||
       (isSym q2 && q3 == padByte && (quartetVal q2).toNat % 4 == 0) ||
       (q2 == padByte && q3 == padByte && (quartetVal q1).toNat % 16 == 0))
  | _ => false

/-- `B64Valid` (R103): conditions 1, 2 and 3, on `m = len(t)`. -/
def b64Valid (t : List Byte) : Bool :=
  t.length % 4 == 0 && (t.take (t.length - 4)).all isSym &&
    (decide (t.length < 4) || lastQuartetValid (t.drop (t.length - 4)))

/-- The 24 bits of a quartet: `v_0 << 18 | v_1 << 12 | v_2 << 6 | v_3` (R104). -/
def quartetBits (s0 s1 s2 s3 : Byte) : BitVec 24 :=
  ((quartetVal s0).setWidth 24 <<< 18) ||| ((quartetVal s1).setWidth 24 <<< 12) |||
    ((quartetVal s2).setWidth 24 <<< 6) ||| (quartetVal s3).setWidth 24

/-- The one to three bytes of a quartet (R104). -/
def quartetBytes (s0 s1 s2 s3 : Byte) : List Byte :=
  let x := quartetBits s0 s1 s2 s3
  if s2 = padByte then [x.extractLsb' 16 8]
  else if s3 = padByte then [x.extractLsb' 16 8, x.extractLsb' 8 8]
  else [x.extractLsb' 16 8, x.extractLsb' 8 8, x.extractLsb' 0 8]

/-- `B64Dec` (R104), used only where `b64Valid` holds: a length that is no multiple of 4 does not occur there. -/
def b64Dec : List Byte → List Byte
  | s0 :: s1 :: s2 :: s3 :: rest => quartetBytes s0 s1 s2 s3 ++ b64Dec rest
  | _ => []

/-- TENC (R106). -/
def execTenc (s : State) : Result :=
  if s.blen.toNat > s.params.maxBytes then raise s .lengthInvalid
  else
    let t := b64Enc s.message
    complete ((s.writeBytes .text 0 t).setTlen t.length)

/-- TDEC (R107). -/
def execTdec (s : State) : Result :=
  if s.tlen.toNat > s.params.maxText then raise s .lengthInvalid
  else
    let t := s.textIn
    if b64Valid t = false then raise s .malformedPayload
    else
      let b := b64Dec t
      complete ((s.writeBytes .bytes 0 b).setBlen b.length)

end Sys2Proof.Machine
end

