-- ==== Sys2Proof/Machine/Embedder.lean ====
section
/-! DEFINITION. The Bit-Channel Embedder: the serialized stream (30_encoding.md R76, R77) and the command EMBED
(41_embedder.md R120 to R124). -/

namespace Sys2Proof.Machine

/-- `bits8(b)`: the bits of a byte, most significant first (R76). -/
def bits8 (b : Byte) : List Bool :=
  [b.getLsbD 7, b.getLsbD 6, b.getLsbD 5, b.getLsbD 4, b.getLsbD 3, b.getLsbD 2, b.getLsbD 1, b.getLsbD 0]

/-- SENTINEL: elements 0 to 14 are 1, element 15 is 0 (R77). -/
def sentinel : List Bool :=
  [true, true, true, true, true, true, true, true, true, true, true, true, true, true, true, false]

/-- `SER(T)`: the characters' bits in string order, then the sentinel (R76). -/
def ser (t : List Byte) : List Bool := t.flatMap bits8 ++ sentinel

/-- `(channel & 0xFE) | bit` (R122). -/
def putLsb (channel : Byte) (bit : Bool) : Byte := (channel &&& 0xFE#8) ||| (BitVec.ofBool bit).setWidth 8

/-- The rotating-channel mux (R122) over PIX's written bytes `m`: bit positions `k`, `k + 1`, ... take the bits of
the stream in order. `epoch` says which reset's free contents an unwritten channel holds. -/
def Mem.embedFrom (epoch : Nat) : Mem → Nat → List Bool → Mem
  | m, _, [] => m
  | m, k, b :: bs =>
    let a := carrierIndex k
    Mem.embedFrom epoch (Mem.write m a (putLsb (Mem.byteAt epoch .pix m a) b)) (k + 1) bs

/-- EMBED (R124). -/
def execEmbed (s : State) : Result :=
  if s.pixcnt.toNat > s.params.maxPixels ∨ s.blen.toNat > s.params.maxBytes then raise s .lengthInvalid
  else
    let stream := ser (b64Enc s.message)
    let req := stream.length
    let s1 := s.setBits req
    if req > s.carriers then raise s1 .capacityExceeded
    else complete (s1.setBank .pix (Mem.embedFrom s.resets s.pix 0 stream))

end Sys2Proof.Machine
end

