-- ==== Sys2Proof/Machine/Extractor.lean ====
section
/-! DEFINITION. The Bit-Channel Extractor: the scan for the sentinel, strip, align and decode, and the command EXTRACT
(42_extractor.md R140 to R147). -/

namespace Sys2Proof.Machine

/-- The sentinel detector (R141), on the accumulator held newest bit first: `last16(ACC) = SENTINEL`. Sixteen equal
elements say that the accumulator holds at least 16 bits. -/
def endsInSentinel (newestFirst : List Bool) : Bool := newestFirst.take 16 == sentinel.reverse

/-- The scan (R140 to R143): read bit position `k`, append it to the accumulator, stop at the first match; `left`
positions are left. Answers the accumulator at the match, or none when the buffer is exhausted. -/
def scan (lsb : Nat → Bool) : (left : Nat) → (k : Nat) → (newestFirst : List Bool) → Option (List Bool)
  | 0, _, _ => none
  | left + 1, k, acc =>
    let acc' := lsb k :: acc
    if endsInSentinel acc' then some acc'.reverse else scan lsb left (k + 1) acc'

/-- One character from its 8 bits, most significant first (R145). -/
def byteOfBits (b7 b6 b5 b4 b3 b2 b1 b0 : Bool) : Byte :=
  ((BitVec.ofBool b7).setWidth 8 <<< 7) ||| ((BitVec.ofBool b6).setWidth 8 <<< 6) |||
  ((BitVec.ofBool b5).setWidth 8 <<< 5) ||| ((BitVec.ofBool b4).setWidth 8 <<< 4) |||
  ((BitVec.ofBool b3).setWidth 8 <<< 3) ||| ((BitVec.ofBool b2).setWidth 8 <<< 2) |||
  ((BitVec.ofBool b1).setWidth 8 <<< 1) ||| (BitVec.ofBool b0).setWidth 8

/-- The payload's characters, 8 bits each (R145). Used where the length is a multiple of 8. -/
def groupBytes : List Bool → List Byte
  | b7 :: b6 :: b5 :: b4 :: b3 :: b2 :: b1 :: b0 :: rest => byteOfBits b7 b6 b5 b4 b3 b2 b1 b0 :: groupBytes rest
  | _ => []

/-- EXTRACT (R147), with the XSTATE of each stage (R146). -/
def execExtract (s : State) : Result :=
  let s1 := s.setXState .scanning
  if s.pixcnt.toNat > s.params.maxPixels then raise (s1.setXState .failed) .lengthInvalid
  else
    match scan s.lsb s.carriers 0 [] with
    | none => raise ((s1.setBits s.carriers).setXState .exhausted) .sentinelNotFound
    | some acc =>
      let s2 := (s1.setBits acc.length).setXState .sentinelFound
      let pay := acc.take (acc.length - 16)
      if pay.length % 8 ≠ 0 then raise (s2.setXState .failed) .malformedPayload
      else
        let s3 := s2.setXState .decoding
        let t := groupBytes pay
        if b64Valid t = false then raise (s3.setXState .failed) .malformedPayload
        else
          let out := b64Dec t
          if out.length > s.params.maxBytes then raise (s3.setXState .failed) .lengthInvalid
          else
            complete (((s3.writeBytes .bytes 0 out).setBlen out.length).setXState .done)

end Sys2Proof.Machine
end

