-- ==== Sys2Proof/Machine/Dispatch.lean ====
section
/-! DEFINITION. Which meaning each command has (43_control.md R166, the table's legal words). -/

namespace Sys2Proof.Machine

def exec (i : Instr) (s : State) : Host.Outcome State Fault Refusal :=
  match i with
  -- control (43_control.md)
  | .nop => Sys2Proof.Machine.execNop s
  -- Bit-Channel Embedder (41_embedder.md)
  | .embed => Sys2Proof.Machine.execEmbed s
  -- Bit-Channel Extractor (42_extractor.md)
  | .extract => Sys2Proof.Machine.execExtract s
  -- Transport Codec (40_transport_codec.md)
  | .tenc => Sys2Proof.Machine.execTenc s
  | .tdec => Sys2Proof.Machine.execTdec s

end Sys2Proof.Machine
end

