-- ==== Sys2Proof/Machine/Engine.lean ====
section
/-! DEFINITION. The ENGINE step (43_control.md R166) and the turns of the agents (20_memory.md R60). -/

namespace Sys2Proof.Machine

/-- The command part of the ENGINE step: the meaning of the pending word, ILLEGAL_COMMAND for any other word (R166). -/
def runCommand (w : Word) (s : State) : Result :=
  match decode w with
  | .ok i => exec i s
  | .error _ => illegalCommand s

/-- After the command: "the step then sets `PENDING <- none`" (R166). -/
def retireResult : Result → Result
  | .next s => .next (retire s)
  | .fault f => .fault f
  | .refused r => .refused r

/-- The ENGINE's turn (R166): one step, enabled exactly when BUSY = 1; otherwise nothing happens. BUSY = 1 without a
pending word is reached by no run (`State.Inv`); there too nothing happens (log 11). -/
def engineTurn (s : State) : Result :=
  if s.status.busy then
    match s.pending with
    | some w => retireResult (runCommand w s)
    | none => .next s
  else .next s

/-- Whose turn the next step is, and the turns after it. When no turn is laid down the ENGINE goes first, so that an
accepted command completes: weak fairness (70_reset_and_hazards.md R240; log 2). -/
def nextTurn (s : State) : Turn × List Turn :=
  match s.turns with
  | [] => (if s.status.busy then .engine else .host, [])
  | t :: ts => (t, ts)

/-- `s` with the turns `ts` still to come. -/
def State.withTurns (s : State) (ts : List Turn) : State := { s with turns := ts }

/-- One turn of an agent. -/
def runTurn (t : Turn) (s : State) : Result :=
  match t with
  | .host => .next (hostTurn s)
  | .engine => engineTurn s
  | .reset => .next (resetBlock s)

/-- One step of the whole: the agent whose turn it is acts. -/
def oneStep (s : State) : Result := runTurn (nextTurn s).1 (s.withTurns (nextTurn s).2)

/-- `s` with the word `w` accepted as a command (a HOST write to CMD, R160) and the ENGINE's turn next. -/
def State.withCommand (s : State) (w : Word) : State := (issue s w).withTurns (.engine :: s.turns)

end Sys2Proof.Machine
end

