-- ==== Sys2Proof/Machine/HostProgram.lean ====
section
/-! DEFINITION. The notation of host programs, its pseudo-instructions and their encoding (30_encoding.md R80 to
R82). -/

namespace Sys2Proof.Machine

/-- One line of a host program (R80, R81). A register name of R80 is its offset. -/
inductive HostLine where
  /-- `WR <off>, <val>` -/
  | wr (offset : Offset) (v : Word)
  /-- `RD <off>` -/
  | rd (offset : Offset)
  /-- `CMD <mnemonic>` -/
  | cmd (i : Instr)
  /-- `CMDW <val>` -/
  | cmdw (v : Word)
  /-- `WAIT` -/
  | wait
  /-- `WP <p>, <val>` -/
  | wp (p : Nat) (v : Word)
  /-- `WPN <p>, <n>, <val>` -/
  | wpn (p n : Nat) (v : Word)
  /-- `WB <i>, <bytes>`, `i` a multiple of 4 -/
  | wb (i : Nat) (bs : List Byte)
  /-- `WT <i>, <bytes>`, `i` a multiple of 4 -/
  | wt (i : Nat) (bs : List Byte)
  /-- `RB <i>`; at an `i` that is no multiple of 4 see `expand` -/
  | rb (i : Nat)
  /-- `RT <i>`; at an `i` that is no multiple of 4 see `expand` -/
  | rt (i : Nat)
  /-- `RP <p>` -/
  | rp (p : Nat)
deriving DecidableEq, Repr

/-- The offset of a register (10_state.md R22). -/
def regOffset : Reg → Offset
  | .cmd => 0x000#25
  | .status => 0x004#25
  | .errcode => 0x008#25
  | .pixcnt => 0x00C#25
  | .blen => 0x010#25
  | .tlen => 0x014#25
  | .bits => 0x018#25

/-- One write transaction. -/
def writeOp (offset : Offset) (v : Word) : HostOp := .request { kind := .wr, offset := offset, wdata := v }

/-- One read transaction; its `wdata` is encoded as 0 (R82). -/
def readOp (offset : Offset) : HostOp := .request { kind := .rd, offset := offset, wdata := 0#32 }

/-- The offset of byte `i` of a memory's window (20_memory.md R51). -/
def windowOffset (b : Bank) (i : Nat) : Offset := BitVec.ofNat 25 (windowBase b + i)

/-- Bytes as little-endian words, "a final partial word padded with 0x00" (R81). -/
def wordsOf : List Byte → List Word
  | [] => []
  | [b0] => [bytesWord b0 0#8 0#8 0#8]
  | [b0, b1] => [bytesWord b0 b1 0#8 0#8]
  | [b0, b1, b2] => [bytesWord b0 b1 b2 0#8]
  | b0 :: b1 :: b2 :: b3 :: rest => bytesWord b0 b1 b2 b3 :: wordsOf rest

/-- Writes of words to a memory's window from byte index `i`. -/
def writeWords (b : Bank) : Nat → List Word → List HostOp
  | _, [] => []
  | i, v :: vs => writeOp (windowOffset b i) v :: writeWords b (i + 4) vs

/-- The expansion of a line (R80, R81). DESIGN CHOICE (log 14): R81 does not say what RB and RT read at a byte index
that is no multiple of 4, and here they read the offset of that index, misaligned and so answered ERR, not the word that
holds the byte; WB and WT there write misaligned offsets. -/
def HostLine.expand : HostLine → List HostOp
  | .wr o v => [writeOp o v]
  | .rd o => [readOp o]
  | .cmd i => [writeOp (regOffset .cmd) (encode i)]
  | .cmdw v => [writeOp (regOffset .cmd) v]
  | .wait => [.wait]
  | .wp p v => [writeOp (windowOffset .pix (4 * p)) v]
  | .wpn p n v => writeWords .pix (4 * p) (List.replicate n v)
  | .wb i bs => writeWords .bytes i (wordsOf bs)
  | .wt i bs => writeWords .text i (wordsOf bs)
  | .rb i => [readOp (windowOffset .bytes i)]
  | .rt i => [readOp (windowOffset .text i)]
  | .rp p => [readOp (windowOffset .pix (4 * p))]

/-- A program as what the HOST does. -/
def expandProgram (lines : List HostLine) : List HostOp := lines.flatMap HostLine.expand

/-- A program's encoding: its list of requests (R82). -/
def encodeProgram (lines : List HostLine) : List Request := (expandProgram lines).map HostOp.toRequest

/-- The HOST is given a program to run. -/
def State.withProgram (s : State) (lines : List HostLine) : State := { s with host := expandProgram lines }

end Sys2Proof.Machine
end

