-- ==== Sys2Proof/Machine/Step.lean ====
section
/-! DEFINITION. The step of the whole machine, and the placing of a command before it (43_control.md R160, R166). -/

namespace Sys2Proof.Machine

/-- One step: the turn of the ENGINE, of the HOST, or of the reset input (20_memory.md R60). -/
def step (s : State) : Host.Outcome State Fault Refusal := oneStep s

/-- `s` with the command word of a row of opcode_table.json accepted at CMD and the ENGINE's turn next, so that the
very next step decodes and runs it (log 7). -/
def State.withFetchWord (s : State) (nbits w : Nat) : State := s.withCommand (tableWord nbits w)

end Sys2Proof.Machine
end

