-- ==== Sys2Proof/WellFormed.lean ====
section
/-! DEFINITION. Which commands and which builds are well-formed (30_encoding.md R74, 00_scope.md R6, R7). -/

namespace Sys2Proof

/-- A command has no operand (R74), so nothing about it can be ill-formed. -/
def Instr.wellFormed : Instr → Bool
  | .nop => true
  | .embed => true
  | .extract => true
  | .tenc => true
  | .tdec => true

/-- The legal builds: the ranges of R6 and the constraint of R7. "A model takes only parameter pairs that meet it." -/
abbrev Params.Legal (p : Params) : Prop :=
  6 ≤ p.maxPixels ∧ p.maxPixels ≤ 4194304 ∧
  p.maxBytes % 12 = 0 ∧ 12 ≤ p.maxBytes ∧ p.maxBytes ≤ 786432 ∧
  Config.maxDec p.maxPixels ≤ p.maxBytes

end Sys2Proof
end

