-- ==== Sys2Proof/Safety.lean ====
section
/-! DEFINITION. What a state of the block must satisfy between steps, in the terms claims use. -/

namespace Sys2Proof.Machine

/-- XSTATE outside a command: "after completion XSTATE is one of 0, 4, 5, 6" (10_state.md R25). -/
def XState.settled : XState → Bool
  | .idle => true
  | .done => true
  | .exhausted => true
  | .failed => true
  | .scanning => false
  | .sentinelFound => false
  | .decoding => false

/-- The invariant of the block between steps. -/
structure State.Inv (s : State) : Prop where
  /-- the build is a legal one (00_scope.md R6, R7) -/
  legal : s.params.Legal
  /-- BUSY = 1 exactly when a command is pending (43_control.md R166, 10_state.md R34) -/
  busy_iff_pending : s.status.busy = s.pending.isSome
  /-- `BUSY = 1 → DONE = 0 ∧ ERR = 0` (10_state.md R24) -/
  busy_clear : s.status.busy = true → s.status.done = false ∧ s.status.err = false
  /-- ERRCODE and XSTATE were cleared at the issue and are written at completion (43_control.md R160, 00_scope.md R12) -/
  busy_cleared : s.status.busy = true → s.errcode = .none ∧ s.status.xstate = .idle
  /-- ERR = 1 exactly when the last code is not NONE (10_state.md R24) -/
  err_iff : s.status.err = decide (s.errcode ≠ .none)
  /-- an error belongs to a completed command (10_state.md R24) -/
  err_done : s.status.err = true → s.status.done = true
  /-- the transient XSTATE values 1, 2 and 3 are never left behind (10_state.md R25) -/
  xstate_settled : s.status.xstate.settled = true
  /-- XSTATE EXHAUSTED goes with SENTINEL_NOT_FOUND (42_extractor.md R146) -/
  exhausted_iff : s.status.xstate = .exhausted ↔ s.errcode = .sentinelNotFound
  /-- XSTATE DONE is a success of EXTRACT (42_extractor.md R146) -/
  xdone_noError : s.status.xstate = .done → s.errcode = .none
  /-- XSTATE FAILED goes with one of the two other errors of EXTRACT (42_extractor.md R146) -/
  failed_error : s.status.xstate = .failed → s.errcode = .malformedPayload ∨ s.errcode = .lengthInvalid
  /-- the three memories keep their canonical form -/
  mem_wf : ∀ b, Mem.wf (s.bank b) = true
  /-- and nothing is ever written outside them (20_memory.md R58, 10_state.md R31, R32) -/
  mem_bounds : ∀ b, Mem.below (Params.bankSize s.params b) (s.bank b) = true

/-! ### The words the statements use, each written from the rule and not from the machine's definitions -/

/-- The required bits of a message of `n` bytes, in the closed form `32 * ceil(n / 3) + 16` (41_embedder.md R121). -/
def reqBits (n : Nat) : Nat := 32 * ((n + 2) / 3) + 16

/-- `last16(ACC) = SENTINEL` where ACC is the first `L` bits of `f`, element by element: 1 at elements 0 to 14 and 0
at element 15 (42_extractor.md R141, 30_encoding.md R77). -/
abbrev SentinelAt (f : Nat → Bool) (L : Nat) : Prop :=
  16 ≤ L ∧ ∀ j, j < 16 → f (L - 16 + j) = decide (j < 15)

/-- The scan of the first `n` bits of `f` stops with `L` bits read: the first match (42_extractor.md R142). -/
abbrev FirstMatch (f : Nat → Bool) (n L : Nat) : Prop :=
  L ≤ n ∧ SentinelAt f L ∧ ∀ L', L' < L → ¬ SentinelAt f L'

/-- Character `i` of a payload: `pay[8i] << 7 | pay[8i+1] << 6 | ... | pay[8i+7]`, as a sum (42_extractor.md R145). -/
def charOf (f : Nat → Bool) (i : Nat) : Byte :=
  BitVec.ofNat 8 ((f (8 * i)).toNat * 128 + (f (8 * i + 1)).toNat * 64 + (f (8 * i + 2)).toNat * 32 +
    (f (8 * i + 3)).toNat * 16 + (f (8 * i + 4)).toNat * 8 + (f (8 * i + 5)).toNat * 4 +
    (f (8 * i + 6)).toNat * 2 + (f (8 * i + 7)).toNat)

/-- The characters of a payload of `n` bits (42_extractor.md R145). -/
def charsOf (f : Nat → Bool) (n : Nat) : List Byte := (List.range (n / 8)).map (charOf f)

/-- The byte value of each symbol value, and 0 past the last (the table of 40_transport_codec.md R100). -/
def symbolOf (v : Nat) : Nat :=
  if v ≤ 25 then 0x41 + v
  else if v ≤ 51 then 0x61 + (v - 26)
  else if v ≤ 61 then 0x30 + (v - 52)
  else if v = 62 then 0x2B
  else if v = 63 then 0x2F
  else 0

/-- The mapped offsets (20_memory.md R51), the alignment of R52 apart. -/
abbrev Mapped (p : Params) (o : Nat) : Prop :=
  o ≤ 0x18 ∨ (0x0100000 ≤ o ∧ o < 0x0100000 + p.maxBytes) ∨
  (0x0200000 ≤ o ∧ o < 0x0200000 + p.maxText) ∨ (0x1000000 ≤ o ∧ o < 0x1000000 + 4 * p.maxPixels)

/-- `WSET` by the pending word (43_control.md R165 item 2): EMBED is 1, EXTRACT 2, TENC 3, TDEC 4 (30_encoding.md
R71). -/
def InWset (w : Word) : Target → Prop
  | .reg .errcode => True
  | .reg .bits => w = 1#32 ∨ w = 2#32
  | .reg .blen => w = 2#32 ∨ w = 4#32
  | .reg .tlen => w = 3#32
  | .word .pix _ => w = 1#32
  | .word .bytes _ => w = 2#32 ∨ w = 4#32
  | .word .text _ => w = 3#32
  | .reg .cmd => False
  | .reg .status => False
  | .reg .pixcnt => False

/-- STATUS after a completion with code `e` (00_scope.md R12), the other two fields as they were. -/
def Status.completed (st : Status) (e : ErrCode) : Status :=
  { busy := false, done := true, err := decide (e ≠ .none), busywr := st.busywr, xstate := st.xstate }

/-- The stream bits that carrier channel `c` of pixel `p` takes part in, as a mask (41_embedder.md R127): bit `8c` of
the pixel word, where position `3p + c` is below `req`. -/
def carrierMask (req p c : Nat) : Word := if 3 * p + c < req then 1#32 <<< (8 * c) else 0#32

end Sys2Proof.Machine
end

