-- ==== Sys2Proof/Certificates/Slice0/Obligations.lean ====
section
/-! DEFINITION. The statements for the provers, from the numbered rules of the spec. -/

open Sys2Proof Sys2Proof.Machine

/-! ### Completion and control (00_scope.md, 43_control.md) -/

/-- R161: NOP, word 0x00000000, is `finish(NONE)` and changes nothing else; issued and stepped, it leaves STATUS at
DONE alone. -/
def Obligations.NopCompletes : Prop :=
  ∀ s : State,
    exec .nop s =
      .next { s with
        errcode := .none,
        status := { busy := false, done := true, err := false, busywr := s.status.busywr, xstate := s.status.xstate } } ∧
    step (s.withCommand 0x00000000#32) =
      .next { s with
        pending := none, errcode := .none,
        status := { busy := false, done := true, err := false, busywr := false, xstate := .idle } }

/-- R162: a word that is none of the five legal ones, accepted and stepped, completes with ILLEGAL_COMMAND, and no
register but STATUS and ERRCODE and no memory changes. -/
def Obligations.IllegalWordCompletes : Prop :=
  ∀ (s : State) (w : Word), 4 < w.toNat →
    step (s.withCommand w) =
      .next { s with
        pending := none, errcode := .illegalCommand,
        status := { busy := false, done := true, err := true, busywr := false, xstate := .idle } }

/-- R160: what a HOST write to CMD while idle does, for every word; while busy it is not an issue. -/
def Obligations.CommandIssue : Prop :=
  ∀ (s : State) (w : Word),
    (s.status.busy = false → hostWrite s 0x0000000#25 w =
      ({ resp := .ok, rdata := 0#32 },
       { s with
         pending := some w, errcode := .none,
         status := { busy := true, done := false, err := false, busywr := false, xstate := .idle } })) ∧
    (s.status.busy = true → hostWrite s 0x0000000#25 w =
      ({ resp := .ok, rdata := 0#32 }, { s with status := { s.status with busywr := true } }))

/-- R166: on the ENGINE's turn a legal pending word runs its command (any other word raises ILLEGAL_COMMAND), and then
PENDING is none; with BUSY = 0 the ENGINE is not enabled. The turn is the ENGINE's where `turns` says so, and where no
turn is laid down while busy (log 2). -/
def Obligations.StepRunsDecodedCommand : Prop :=
  ∀ (s : State) (ts : List Turn),
    (s.turns = .engine :: ts ∨ (s.turns = [] ∧ ts = [] ∧ s.status.busy = true)) →
    (s.status.busy = false → step s = .next (s.withTurns ts)) ∧
    ∀ w, s.status.busy = true → s.pending = some w →
      (∀ i, decode w = .ok i →
        step s = match exec i (s.withTurns ts) with
          | .next t => .next { t with pending := none }
          | .fault f => .fault f
          | .refused r => .refused r) ∧
      ((∀ i, decode w ≠ .ok i) →
        step s = .next { s with
          turns := ts, pending := none, errcode := .illegalCommand, status := s.status.completed .illegalCommand })

/-- The whole machine never stops: every step of every state answers a next state. That no step stops is the model's
reading of the spec (DEDUCED, log 15); that with BUSY = 1 and PENDING none, which no run reaches, the ENGINE's turn answers
a next state too is the model's choice (DESIGN CHOICE, log 11). -/
def Obligations.StepAlwaysAnswersNext : Prop := ∀ s : State, ∃ t, step s = .next t

/-- Every command, in every state, completes: BUSY 0, DONE 1, ERR says whether the code is NONE, BUSYWR kept; and no
command touches PIXCNT, PENDING, the build's parameters or what is outside the block. -/
def Obligations.EveryCommandFinishes : Prop :=
  ∀ (i : Instr) (s : State), ∃ t, exec i s = .next t ∧
    t.status.busy = false ∧ t.status.done = true ∧ t.status.err = decide (t.errcode ≠ .none) ∧
    t.status.busywr = s.status.busywr ∧ t.pixcnt = s.pixcnt ∧ t.pending = s.pending ∧ t.params = s.params ∧
    t.resets = s.resets ∧ t.draws = s.draws ∧ t.host = s.host ∧ t.turns = s.turns ∧ t.responses = s.responses

/-- The codes each command can complete with. -/
def Obligations.CompletionCodes : Prop :=
  ∀ (i : Instr) (s t : State), exec i s = .next t →
    (i = .nop → t.errcode = .none) ∧
    (i = .embed → t.errcode = .none ∨ t.errcode = .capacityExceeded ∨ t.errcode = .lengthInvalid) ∧
    (i = .extract → t.errcode = .none ∨ t.errcode = .sentinelNotFound ∨ t.errcode = .malformedPayload ∨
      t.errcode = .lengthInvalid) ∧
    (i = .tenc → t.errcode = .none ∨ t.errcode = .lengthInvalid) ∧
    (i = .tdec → t.errcode = .none ∨ t.errcode = .malformedPayload ∨ t.errcode = .lengthInvalid)

/-- Errors are precise: a command that ends with an error leaves PIX, BYTES, TEXT, BLEN and TLEN exactly as they
were. -/
def Obligations.ErrorsLeaveOutputsUnchanged : Prop :=
  ∀ (i : Instr) (s t : State), exec i s = .next t → t.errcode ≠ .none →
    t.pix = s.pix ∧ t.bytes = s.bytes ∧ t.text = s.text ∧ t.blen = s.blen ∧ t.tlen = s.tlen

/-- The frame of every command by the table of its outputs: who may write PIX, BYTES, BLEN, TEXT, TLEN, BITS and
XSTATE. -/
def Obligations.CommandsWriteOnlyTheirOutputs : Prop :=
  ∀ (i : Instr) (s t : State), exec i s = .next t →
    (i ≠ .embed → ∀ a, t.byteAt .pix a = s.byteAt .pix a) ∧
    (i ≠ .extract → i ≠ .tdec → t.blen = s.blen ∧ ∀ a, t.byteAt .bytes a = s.byteAt .bytes a) ∧
    (i ≠ .tenc → t.tlen = s.tlen ∧ ∀ a, t.byteAt .text a = s.byteAt .text a) ∧
    (i ≠ .embed → i ≠ .extract → t.bits = s.bits) ∧
    (i ≠ .extract → t.status.xstate = s.status.xstate) ∧ t.pixcnt = s.pixcnt

/-- No command changes an alpha channel, or any channel of a pixel at or past PIXCNT. -/
def Obligations.AlphaAndOutsidePixelsUntouched : Prop :=
  ∀ (i : Instr) (s t : State) (p : Nat), exec i s = .next t →
    t.ch p 3 = s.ch p 3 ∧ (s.pixcnt.toNat ≤ p → ∀ c, c < 4 → t.ch p c = s.ch p c)

/-! ### Encodings (30_encoding.md) -/

/-- The five words of R71, written out, decode to the commands they stand for, and their neighbours are rejected. -/
def Obligations.TableWordsDecode : Prop :=
  decode 0x00000000#32 = .ok .nop ∧ decode 0x00000001#32 = .ok .embed ∧ decode 0x00000002#32 = .ok .extract ∧
  decode 0x00000003#32 = .ok .tenc ∧ decode 0x00000004#32 = .ok .tdec ∧
  decode 0x00000005#32 = .error (.reservedOpcode 0x5#4) ∧ decode 0x00000011#32 = .error (.reservedBits 0x1#28)

/-- R71: decode and encode agree on every word (a word decodes to a command exactly when it is the command's word), and
the legal words are the five of the opcode map. -/
def Obligations.DecodeEncodeAgree : Prop :=
  (∀ (w : Word) (i : Instr), decode w = .ok i ↔ w = encode i) ∧
  encode .nop = 0x00000000#32 ∧ encode .embed = 0x00000001#32 ∧ encode .extract = 0x00000002#32 ∧
  encode .tenc = 0x00000003#32 ∧ encode .tdec = 0x00000004#32

/-- The words that are no command, by what is reserved in them (the names are the model's own, log 8). -/
def Obligations.IllegalWordsRejectedByName : Prop :=
  ∀ w : Word,
    (16 ≤ w.toNat → decode w = .error (.reservedBits (BitVec.ofNat 28 (w.toNat / 16)))) ∧
    (5 ≤ w.toNat → w.toNat < 16 → decode w = .error (.reservedOpcode (BitVec.ofNat 4 w.toNat)))

/-- R77: the sentinel, and its value 0xFFFE with element 0 most significant. -/
def Obligations.SentinelPattern : Prop :=
  sentinel.length = 16 ∧ (∀ i, i < 15 → sentinel[i]? = some true) ∧ sentinel[15]? = some false ∧
  sentinel.foldl (fun v b => 2 * v + b.toNat) 0 = 0xFFFE

/-- R76: the serialized stream of a transport string, element by element. -/
def Obligations.SerializedStream : Prop :=
  ∀ t : List Byte,
    (ser t).length = 8 * t.length + 16 ∧
    (∀ i j, (h : i < t.length) → j < 8 → (ser t)[8 * i + j]? = some (t[i].getLsbD (7 - j))) ∧
    (∀ j, j < 16 → (ser t)[8 * t.length + j]? = some (decide (j < 15)))

/-- The expansions of the pseudo-instructions, for the pixel and byte indexes that a window can hold (and, for a byte
index, multiples of 4). What the model does at other indexes, and that a WAIT loop is one HOST operation whose requests
are RD STATUS, are its own choices (DESIGN CHOICE, log 14). -/
def Obligations.PseudoInstructionExpansion : Prop :=
  (∀ i, (HostLine.cmd i).expand = [.request { kind := .wr, offset := 0x0000000#25, wdata := encode i }]) ∧
  (∀ v, (HostLine.cmdw v).expand = [.request { kind := .wr, offset := 0x0000000#25, wdata := v }]) ∧
  (HostLine.wait.expand = [.wait] ∧ HostOp.wait.toRequest = { kind := .rd, offset := 0x0000004#25, wdata := 0#32 } ∧
    ∀ rsp : Response, HostOp.wait.isOver rsp = !rsp.rdata.getLsbD 0) ∧
  (∀ p v, p < 4194304 → (HostLine.wp p v).expand =
    [.request { kind := .wr, offset := BitVec.ofNat 25 (0x1000000 + 4 * p), wdata := v }]) ∧
  (∀ p n v, p + n ≤ 4194304 → (HostLine.wpn p n v).expand.length = n ∧
    ∀ j, j < n → (HostLine.wpn p n v).expand[j]? = (HostLine.wp (p + j) v).expand[0]?) ∧
  (∀ i bs, i % 4 = 0 → i + bs.length ≤ 0x0100000 →
    (HostLine.wb i bs).expand.length = (bs.length + 3) / 4 ∧
    (HostLine.wt i bs).expand.length = (bs.length + 3) / 4 ∧
    ∀ j, 4 * j < bs.length → ∃ v : Word,
      (∀ m, m < 4 → v.extractLsb' (8 * m) 8 = bs.getD (4 * j + m) 0#8) ∧
      (HostLine.wb i bs).expand[j]? =
        some (.request { kind := .wr, offset := BitVec.ofNat 25 (0x0100000 + i + 4 * j), wdata := v }) ∧
      (HostLine.wt i bs).expand[j]? =
        some (.request { kind := .wr, offset := BitVec.ofNat 25 (0x0200000 + i + 4 * j), wdata := v })) ∧
  (∀ i, i % 4 = 0 → i < 0x0100000 → (HostLine.rb i).expand =
    [.request { kind := .rd, offset := BitVec.ofNat 25 (0x0100000 + i), wdata := 0#32 }]) ∧
  (∀ i, i % 4 = 0 → i < 0x0100000 → (HostLine.rt i).expand =
    [.request { kind := .rd, offset := BitVec.ofNat 25 (0x0200000 + i), wdata := 0#32 }]) ∧
  (∀ p, p < 4194304 → (HostLine.rp p).expand =
    [.request { kind := .rd, offset := BitVec.ofNat 25 (0x1000000 + 4 * p), wdata := 0#32 }])

/-! ### The HOST's transactions (20_memory.md, 43_control.md) -/

/-- R51: the address map of a legal build. Each register and each window word has its offset; an aligned offset outside
them, and every misaligned one, names nothing. -/
def Obligations.AddressMap : Prop :=
  ∀ p : Params, p.Legal →
    decodeOffset p 0x0000000#25 = some (.reg .cmd) ∧ decodeOffset p 0x0000004#25 = some (.reg .status) ∧
    decodeOffset p 0x0000008#25 = some (.reg .errcode) ∧ decodeOffset p 0x000000C#25 = some (.reg .pixcnt) ∧
    decodeOffset p 0x0000010#25 = some (.reg .blen) ∧ decodeOffset p 0x0000014#25 = some (.reg .tlen) ∧
    decodeOffset p 0x0000018#25 = some (.reg .bits) ∧
    (∀ w, 4 * w < p.maxBytes → decodeOffset p (BitVec.ofNat 25 (0x0100000 + 4 * w)) = some (.word .bytes w)) ∧
    (∀ w, 4 * w < p.maxText → decodeOffset p (BitVec.ofNat 25 (0x0200000 + 4 * w)) = some (.word .text w)) ∧
    (∀ w, w < p.maxPixels → decodeOffset p (BitVec.ofNat 25 (0x1000000 + 4 * w)) = some (.word .pix w)) ∧
    (∀ o : Offset, (o.toNat % 4 ≠ 0 ∨ ¬ Mapped p o.toNat) ↔ decodeOffset p o = none) ∧
    p.maxBytes ≤ 0x0C0000 ∧ p.maxText ≤ 0x100000 ∧ 4 * p.maxPixels ≤ 0x1000000 ∧
    p.maxBytes % 4 = 0 ∧ p.maxText % 4 = 0

/-- R52, R201: a misaligned or unmapped transaction is answered ERR with data 0 and has no effect on any state, busy
or idle; every other one is answered OK. -/
def Obligations.BadAccessAnswersErr : Prop :=
  ∀ (s : State) (r : Request),
    ((r.offset.toNat % 4 ≠ 0 ∨ ¬ Mapped s.params r.offset.toNat) →
      transact s r = ({ resp := .err, rdata := 0#32 }, s)) ∧
    (r.offset.toNat % 4 = 0 → Mapped s.params r.offset.toNat → (transact s r).1.resp = .ok)

/-- What an idle read of each register and of each memory word answers; it changes nothing. -/
def Obligations.HostReadIdle : Prop :=
  ∀ s : State, s.status.busy = false →
    hostRead s 0x0000000#25 = ({ resp := .ok, rdata := 0#32 }, s) ∧
    hostRead s 0x0000004#25 = ({ resp := .ok, rdata := s.status.word }, s) ∧
    hostRead s 0x0000008#25 = ({ resp := .ok, rdata := s.errcode.word }, s) ∧
    hostRead s 0x000000C#25 = ({ resp := .ok, rdata := s.pixcnt }, s) ∧
    hostRead s 0x0000010#25 = ({ resp := .ok, rdata := s.blen }, s) ∧
    hostRead s 0x0000014#25 = ({ resp := .ok, rdata := s.tlen }, s) ∧
    hostRead s 0x0000018#25 = ({ resp := .ok, rdata := s.bits.setWidth 32 }, s) ∧
    ∀ (b : Bank) (w : Nat), s.params.Legal → 4 * w < Params.bankSize s.params b →
      ∃ v : Word, hostRead s (BitVec.ofNat 25 (windowBase b + 4 * w)) = ({ resp := .ok, rdata := v }, s) ∧
        ∀ j, j < 4 → v.extractLsb' (8 * j) 8 = s.byteAt b (4 * w + j)

/-- What an idle write of each register but CMD and of each memory word does: read-only registers ignore it, PIXCNT,
BLEN and TLEN store all 32 bits, a memory word stores its four bytes little-endian and no other byte changes. -/
def Obligations.HostWriteIdle : Prop :=
  ∀ (s : State) (v : Word), s.status.busy = false →
    hostWrite s 0x0000004#25 v = ({ resp := .ok, rdata := 0#32 }, s) ∧
    hostWrite s 0x0000008#25 v = ({ resp := .ok, rdata := 0#32 }, s) ∧
    hostWrite s 0x0000018#25 v = ({ resp := .ok, rdata := 0#32 }, s) ∧
    hostWrite s 0x000000C#25 v = ({ resp := .ok, rdata := 0#32 }, { s with pixcnt := v }) ∧
    hostWrite s 0x0000010#25 v = ({ resp := .ok, rdata := 0#32 }, { s with blen := v }) ∧
    hostWrite s 0x0000014#25 v = ({ resp := .ok, rdata := 0#32 }, { s with tlen := v }) ∧
    ∀ (b : Bank) (w : Nat), s.params.Legal → 4 * w < Params.bankSize s.params b →
      ∃ t, hostWrite s (BitVec.ofNat 25 (windowBase b + 4 * w)) v = ({ resp := .ok, rdata := 0#32 }, t) ∧
        t = { s with pix := t.pix, bytes := t.bytes, text := t.text } ∧
        (∀ j, j < 4 → t.byteAt b (4 * w + j) = v.extractLsb' (8 * j) 8) ∧
        (∀ b' a, (b' = b → a < 4 * w ∨ 4 * w + 4 ≤ a) → t.byteAt b' a = s.byteAt b' a)

/-- HOST transactions while busy, item by item. The pending word `w` may be any. That a draw is the free value
`Config.draw32` (for XSTATE, one of the values 1 to 6) at the model's count of draws, which the read advances, is the
model's form of it (DESIGN CHOICE, log 4). -/
def Obligations.AccessWhileBusy : Prop :=
  ∀ (s : State) (w : Word) (t : Target) (o : Offset),
    s.status.busy = true → s.pending = some w → decodeOffset s.params o = some t →
    (∀ v, hostWrite s o v =
      ({ resp := .ok, rdata := 0#32 }, { s with status := { s.status with busywr := true } })) ∧
    (InWset w t → hostRead s o =
      ({ resp := .ok, rdata := Config.draw32 s.draws }, { s with draws := s.draws + 1 })) ∧
    (t = .reg .status → w ≠ 2#32 → hostRead s o =
      ({ resp := .ok, rdata := BitVec.ofNat 32 (1 + 8 * s.status.busywr.toNat) }, s)) ∧
    (t = .reg .status → w = 2#32 → ∃ x, 1 ≤ x ∧ x ≤ 6 ∧ hostRead s o =
      ({ resp := .ok, rdata := BitVec.ofNat 32 (1 + 8 * s.status.busywr.toNat + 16 * x) },
       { s with draws := s.draws + 1 })) ∧
    (¬ InWset w t → t ≠ .reg .status → hostRead s o = ({ resp := .ok, rdata := s.stored t }, s))

/-- A HOST read has no side effect on any state of the block: only the model's own count of draws may advance, and
only while busy. -/
def Obligations.ReadHasNoSideEffect : Prop :=
  ∀ (s : State) (o : Offset),
    (∃ n, (hostRead s o).2 = { s with draws := n }) ∧ (s.status.busy = false → (hostRead s o).2 = s)

/-- The STATUS word: BUSY bit 0, DONE bit 1, ERR bit 2, BUSYWR bit 3, XSTATE bits 6:4 with the values of R25, and the
reserved bits 0. -/
def Obligations.StatusWordLayout : Prop :=
  ∀ st : Status,
    st.word.toNat = st.busy.toNat + 2 * st.done.toNat + 4 * st.err.toNat + 8 * st.busywr.toNat +
      16 * (match st.xstate with
        | .idle => 0 | .scanning => 1 | .sentinelFound => 2 | .decoding => 3 | .done => 4 | .exhausted => 5
        | .failed => 6)

/-- The word ERRCODE reads as, for each completion code; bits 31:4 are 0. -/
def Obligations.ErrcodeWordLayout : Prop :=
  ∀ e : ErrCode, e.word.toNat =
    (match e with
      | .none => 0 | .capacityExceeded => 1 | .sentinelNotFound => 2 | .malformedPayload => 3
      | .illegalCommand => 4 | .lengthInvalid => 5)

/-- A HOST turn performs and answers exactly one transaction, in the order the HOST issues them. The turn is the HOST's
where `turns` says so, and where no turn is laid down while idle (log 2). -/
def Obligations.HostTurnPerformsOneTransaction : Prop :=
  ∀ (s : State) (r : Request) (rest : List HostOp) (ts : List Turn),
    (s.turns = .host :: ts ∨ (s.turns = [] ∧ ts = [] ∧ s.status.busy = false)) → s.host = .request r :: rest →
    step s = .next { (transact (s.withTurns ts) r).2 with
      host := rest, responses := s.responses ++ [(transact (s.withTurns ts) r).1] }

/-- A WAIT loop reads STATUS and repeats while bit 0 of the answer is 1, that is while BUSY = 1. The turn is
the HOST's where `turns` says so, and where no turn is laid down while idle (log 2). -/
def Obligations.WaitRepeatsWhileBusy : Prop :=
  ∀ (s : State) (rest : List HostOp) (ts : List Turn),
    (s.turns = .host :: ts ∨ (s.turns = [] ∧ ts = [] ∧ s.status.busy = false)) → s.host = .wait :: rest →
    ∃ t v, step s = .next t ∧ t.responses = s.responses ++ [{ resp := .ok, rdata := v }] ∧
      v.getLsbD 0 = s.status.busy ∧ t.host = (if s.status.busy then .wait :: rest else rest) ∧
      t.status = s.status ∧ t.pending = s.pending

/-! ### The Transport Codec (40_transport_codec.md) -/

/-- The alphabet (the spec's supplement from general knowledge, PRESUMED, log 12). Each symbol value has the byte the table gives it, each symbol byte that value, no other byte is
a symbol, and the pad is 0x3D, no symbol. `symbolOf` is the table, written from the rule. -/
def Obligations.B64Alphabet : Prop :=
  padByte = 0x3D#8 ∧ isSym padByte = false ∧
  (∀ v : BitVec 6, (sym v).toNat = symbolOf v.toNat ∧ val? (sym v) = some v) ∧
  ∀ c : Byte, isSym c = true ↔ ∃ v, v < 64 ∧ c.toNat = symbolOf v

/-- The encoder, group by group (log 12): `x` is `b0 << 16 | b1 << 8 | b2` as a number, with 0 for a byte the last group
lacks; the characters are the symbols of its four 6-bit fields, most significant first, and the pads 0x3D. -/
def Obligations.B64EncGroups : Prop :=
  ∀ b : List Byte, (b64Enc b).length = 4 * ((b.length + 2) / 3) ∧
    ∀ g x, 3 * g < b.length →
      x = (b.getD (3 * g) 0#8).toNat * 65536 + (b.getD (3 * g + 1) 0#8).toNat * 256 + (b.getD (3 * g + 2) 0#8).toNat →
      ((b64Enc b).getD (4 * g) 0#8).toNat = symbolOf (x / 262144) ∧
      ((b64Enc b).getD (4 * g + 1) 0#8).toNat = symbolOf (x / 4096 % 64) ∧
      ((b64Enc b).getD (4 * g + 2) 0#8).toNat = (if 3 * g + 1 < b.length then symbolOf (x / 64 % 64) else 0x3D) ∧
      ((b64Enc b).getD (4 * g + 3) 0#8).toNat = (if 3 * g + 2 < b.length then symbolOf (x % 64) else 0x3D)

/-- The decoder, quartet by quartet (log 12): `v j` is the value of character `j` of quartet `q`, 0 for the pad, and `x` is
`v_0 << 18 | v_1 << 12 | v_2 << 6 | v_3` as a number; a pad in place 2 leaves one byte of it, a pad in place 3 two. -/
def Obligations.B64DecGroups : Prop :=
  ∀ (t : List Byte) (q x : Nat) (v : Nat → Nat), b64Valid t = true → 4 * q < t.length →
    (∀ j, j < 4 → (v j < 64 ∧ (t.getD (4 * q + j) 0#8).toNat = symbolOf (v j)) ∨
      (v j = 0 ∧ t.getD (4 * q + j) 0#8 = 0x3D#8)) →
    x = v 0 * 262144 + v 1 * 4096 + v 2 * 64 + v 3 →
    ((b64Dec t).getD (3 * q) 0#8).toNat = x / 65536 ∧
    (t.getD (4 * q + 2) 0#8 ≠ 0x3D#8 → ((b64Dec t).getD (3 * q + 1) 0#8).toNat = x / 256 % 256) ∧
    (t.getD (4 * q + 3) 0#8 ≠ 0x3D#8 → ((b64Dec t).getD (3 * q + 2) 0#8).toNat = x % 256) ∧
    (t.getD (4 * q + 2) 0#8 = 0x3D#8 → (b64Dec t).length = 3 * q + 1) ∧
    (t.getD (4 * q + 2) 0#8 ≠ 0x3D#8 → t.getD (4 * q + 3) 0#8 = 0x3D#8 → (b64Dec t).length = 3 * q + 2)

/-- R106: TENC, word 0x00000003, in both of its ends. `T` is the encoding of `BYTES[0..BLEN)`. -/
def Obligations.TencResult : Prop :=
  decode 0x00000003#32 = .ok .tenc ∧
  ∀ (s : State) (T : List Byte), T = b64Enc ((List.range s.blen.toNat).map (s.byteAt .bytes)) →
    (s.params.maxBytes < s.blen.toNat → exec .tenc s =
      .next { s with errcode := .lengthInvalid, status := s.status.completed .lengthInvalid }) ∧
    (s.blen.toNat ≤ s.params.maxBytes → ∃ t, exec .tenc s = .next t ∧
      t = { s with
        errcode := .none, status := s.status.completed .none, tlen := BitVec.ofNat 32 T.length, text := t.text } ∧
      (∀ i, i < T.length → t.byteAt .text i = T.getD i 0#8) ∧
      (∀ b a, (b = .text → T.length ≤ a) → t.byteAt b a = s.byteAt b a))

/-- R107: TDEC, word 0x00000004, in its three ends. `x` is `TEXT[0..TLEN)`. -/
def Obligations.TdecResult : Prop :=
  decode 0x00000004#32 = .ok .tdec ∧
  ∀ (s : State) (x : List Byte), x = (List.range s.tlen.toNat).map (s.byteAt .text) →
    (s.params.maxText < s.tlen.toNat → exec .tdec s =
      .next { s with errcode := .lengthInvalid, status := s.status.completed .lengthInvalid }) ∧
    (s.tlen.toNat ≤ s.params.maxText → b64Valid x = false → exec .tdec s =
      .next { s with errcode := .malformedPayload, status := s.status.completed .malformedPayload }) ∧
    (s.tlen.toNat ≤ s.params.maxText → b64Valid x = true → ∃ t, exec .tdec s = .next t ∧
      t = { s with
        errcode := .none, status := s.status.completed .none, blen := BitVec.ofNat 32 (b64Dec x).length,
        bytes := t.bytes } ∧
      (∀ i, i < (b64Dec x).length → t.byteAt .bytes i = (b64Dec x).getD i 0#8) ∧
      (∀ b a, (b = .bytes → (b64Dec x).length ≤ a) → t.byteAt b a = s.byteAt b a))

/-- The encoder's length, its characters, and where the pads stand. -/
def Obligations.B64EncShape : Prop :=
  ∀ b : List Byte,
    (b64Enc b).length = 4 * ((b.length + 2) / 3) ∧
    ∀ i, i < (b64Enc b).length →
      (isSym ((b64Enc b).getD i 0#8) = true ∨ (b64Enc b).getD i 0#8 = padByte) ∧
      ((b64Enc b).getD i 0#8 = padByte ↔
        (b.length % 3 = 2 ∧ i + 1 = (b64Enc b).length) ∨ (b.length % 3 = 1 ∧ (b64Enc b).length ≤ i + 2))

/-- Lossless and reversible: every encoding is valid and decodes to what was encoded. -/
def Obligations.B64DecodeInvertsEncode : Prop :=
  ∀ b : List Byte, b64Valid (b64Enc b) = true ∧ b64Dec (b64Enc b) = b

/-- The valid sequences are exactly the encoder's outputs, and the encoder inverts the decoder on them. -/
def Obligations.B64ValidIsEncoderImage : Prop :=
  ∀ t : List Byte, (b64Valid t = true ↔ ∃ b, t = b64Enc b) ∧ (b64Valid t = true → b64Enc (b64Dec t) = t)

/-- The decoder's length: three bytes a quartet, less the number of pads, of which there are at most two. -/
def Obligations.B64DecLength : Prop :=
  ∀ t : List Byte, b64Valid t = true →
    (b64Dec t).length = 3 * (t.length / 4) - t.count padByte ∧ t.count padByte ≤ 2

/-- No run of five 1 bits stands in the characters' bits of a transport string. -/
def Obligations.NoFiveOnesInTransportBits : Prop :=
  ∀ t : List Byte, (∀ c, c ∈ t → isSym c = true ∨ c = padByte) →
    ∀ k, ∃ j, j < 5 ∧ (t.flatMap bits8).getD (k + j) false = false

/-! ### The Bit-Channel Embedder (41_embedder.md) -/

/-- The required bits of a message in closed form, and the largest message a buffer of `P` pixels holds. -/
def Obligations.RequiredBits : Prop :=
  ∀ (m : List Byte) (P : Nat),
    (ser (b64Enc m)).length = reqBits m.length ∧
    ((ser (b64Enc m)).length ≤ 3 * P ↔ 16 ≤ 3 * P ∧ m.length ≤ 3 * ((3 * P - 16) / 32))

/-- R124: EMBED, word 0x00000001, in its three ends. `S` is the serialized stream of the encoded message, `S.length` the
required bits. The carrier of bit position `k` is byte `4 * (k / 3) + k % 3` of PIX (`carrierIndex`). -/
def Obligations.EmbedResult : Prop :=
  decode 0x00000001#32 = .ok .embed ∧
  ∀ (s : State) (S : List Bool), S = ser (b64Enc ((List.range s.blen.toNat).map (s.byteAt .bytes))) →
    (s.params.maxPixels < s.pixcnt.toNat ∨ s.params.maxBytes < s.blen.toNat → exec .embed s =
      .next { s with errcode := .lengthInvalid, status := s.status.completed .lengthInvalid }) ∧
    (s.pixcnt.toNat ≤ s.params.maxPixels → s.blen.toNat ≤ s.params.maxBytes → 3 * s.pixcnt.toNat < S.length →
      exec .embed s =
        .next { s with
          errcode := .capacityExceeded, status := s.status.completed .capacityExceeded,
          bits := BitVec.ofNat 24 S.length }) ∧
    (s.pixcnt.toNat ≤ s.params.maxPixels → s.blen.toNat ≤ s.params.maxBytes → S.length ≤ 3 * s.pixcnt.toNat →
      ∃ t, exec .embed s = .next t ∧
        t = { s with
          errcode := .none, status := s.status.completed .none, bits := BitVec.ofNat 24 S.length, pix := t.pix } ∧
        (∀ k, k < S.length → t.ch (k / 3) (k % 3) =
          (s.ch (k / 3) (k % 3) &&& 0xFE#8) ||| (if S.getD k false then 1#8 else 0#8)) ∧
        (∀ b a, (b = .pix → ∀ k, k < S.length → a ≠ carrierIndex k) → t.byteAt b a = s.byteAt b a))

/-- The capacity boundary: `ceil(req/3)` pixels succeed and one pixel fewer fails with CAPACITY_EXCEEDED. -/
def Obligations.CapacityBoundary : Prop :=
  ∀ (s : State) (P : Nat), s.params.Legal → s.blen.toNat ≤ s.params.maxBytes →
    P = (reqBits s.blen.toNat + 2) / 3 → P ≤ s.params.maxPixels →
    (∃ t, exec .embed { s with pixcnt := BitVec.ofNat 32 P } = .next t ∧ t.errcode = .none) ∧
    (∃ t, exec .embed { s with pixcnt := BitVec.ofNat 32 (P - 1) } = .next t ∧ t.errcode = .capacityExceeded ∧
      ∀ a, t.byteAt .pix a = s.byteAt .pix a)

/-- The per-pixel form of a successful EMBED: a pixel word keeps every bit outside the mask of the stream bits it
carries, and takes those bits inside it. -/
def Obligations.EmbeddedPixelWord : Prop :=
  ∀ (s t : State) (p : Nat) (S : Nat → Bool), exec .embed s = .next t → t.errcode = .none →
    (∀ k, S k = (ser (b64Enc s.message)).getD k false) →
    ∀ req, req = reqBits s.blen.toNat →
    t.readWord .pix p =
      (s.readWord .pix p &&& ~~~(carrierMask req p 0 ||| carrierMask req p 1 ||| carrierMask req p 2)) |||
      (if S (3 * p) then carrierMask req p 0 else 0#32) ||| (if S (3 * p + 1) then carrierMask req p 1 else 0#32) |||
      (if S (3 * p + 2) then carrierMask req p 2 else 0#32)

/-- EMBED of the same message twice leaves the buffer as after the first. -/
def Obligations.ReembedSameMessage : Prop :=
  ∀ s t : State, exec .embed s = .next t → t.errcode = .none →
    ∃ u, exec .embed t = .next u ∧ u.errcode = .none ∧ u.bits = t.bits ∧ ∀ b a, u.byteAt b a = t.byteAt b a

/-! ### The Bit-Channel Extractor (42_extractor.md) -/

/-- R147: EXTRACT, word 0x00000002, in its six ends, in the order of its checks: too many pixels; no match in the
whole buffer; with the first match at `L` bits, a payload that is not byte-aligned or that the codec rejects; a decoded
output longer than BYTES; success. Each equation is the whole frame too: every state it does not name is unchanged. -/
def Obligations.ExtractResult : Prop :=
  decode 0x00000002#32 = .ok .extract ∧
  ∀ s : State,
    (s.params.maxPixels < s.pixcnt.toNat → exec .extract s =
      .next { s with
        errcode := .lengthInvalid,
        status := { s.status.completed .lengthInvalid with xstate := .failed } }) ∧
    (s.pixcnt.toNat ≤ s.params.maxPixels →
      ((∀ L, L ≤ 3 * s.pixcnt.toNat → ¬ SentinelAt s.lsb L) → exec .extract s =
        .next { s with
          errcode := .sentinelNotFound, bits := BitVec.ofNat 24 (3 * s.pixcnt.toNat),
          status := { s.status.completed .sentinelNotFound with xstate := .exhausted } }) ∧
      ∀ L x, FirstMatch s.lsb (3 * s.pixcnt.toNat) L → x = charsOf s.lsb (L - 16) →
        ((L - 16) % 8 ≠ 0 ∨ b64Valid x = false → exec .extract s =
          .next { s with
            errcode := .malformedPayload, bits := BitVec.ofNat 24 L,
            status := { s.status.completed .malformedPayload with xstate := .failed } }) ∧
        ((L - 16) % 8 = 0 → b64Valid x = true → s.params.maxBytes < (b64Dec x).length → exec .extract s =
          .next { s with
            errcode := .lengthInvalid, bits := BitVec.ofNat 24 L,
            status := { s.status.completed .lengthInvalid with xstate := .failed } }) ∧
        ((L - 16) % 8 = 0 → b64Valid x = true → (b64Dec x).length ≤ s.params.maxBytes →
          ∃ t, exec .extract s = .next t ∧
            t = { s with
              errcode := .none, bits := BitVec.ofNat 24 L, blen := BitVec.ofNat 32 (b64Dec x).length,
              bytes := t.bytes, status := { s.status.completed .none with xstate := .done } } ∧
            (∀ i, i < (b64Dec x).length → t.byteAt .bytes i = (b64Dec x).getD i 0#8) ∧
            (∀ b a, (b = .bytes → (b64Dec x).length ≤ a) → t.byteAt b a = s.byteAt b a)))

/-- The outcome of EXTRACT depends only on PIXCNT and the carriers' LSBs: two states of one build that agree on them
end alike, whatever else differs. -/
def Obligations.ExtractDependsOnlyOnLsbs : Prop :=
  ∀ s u : State, s.params = u.params → s.pixcnt = u.pixcnt →
    (∀ k, k < 3 * s.pixcnt.toNat → s.lsb k = u.lsb k) →
    ∃ t v, exec .extract s = .next t ∧ exec .extract u = .next v ∧
      t.errcode = v.errcode ∧ t.status.xstate = v.status.xstate ∧
      (s.pixcnt.toNat ≤ s.params.maxPixels → t.bits = v.bits) ∧
      (t.errcode = .none → t.blen = v.blen ∧ ∀ i, i < t.blen.toNat → t.byteAt .bytes i = v.byteAt .bytes i)

/-- The round trip: EXTRACT of a buffer whose first `req` carriers hold what a successful EMBED wrote returns the
message, with BITS = req and XSTATE = DONE. -/
def Obligations.EmbedExtractRoundTrip : Prop :=
  ∀ s t u : State, exec .embed s = .next t → t.errcode = .none →
    u.params = s.params → u.pixcnt.toNat ≤ u.params.maxPixels → reqBits s.blen.toNat ≤ 3 * u.pixcnt.toNat →
    (∀ k, k < reqBits s.blen.toNat → u.lsb k = t.lsb k) →
    ∃ v, exec .extract u = .next v ∧ v.errcode = .none ∧ v.status.xstate = .done ∧
      v.bits = BitVec.ofNat 24 (reqBits s.blen.toNat) ∧ v.blen = s.blen ∧
      ∀ i, i < s.blen.toNat → v.byteAt .bytes i = s.byteAt .bytes i

/-- A buffer cut short: with fewer carriers than the stream has bits, the bits read are a proper prefix of it, no match
occurs, and EXTRACT fails with SENTINEL_NOT_FOUND. -/
def Obligations.ShortBufferFindsNoSentinel : Prop :=
  ∀ s t u : State, exec .embed s = .next t → t.errcode = .none →
    u.params = s.params → u.pixcnt.toNat ≤ u.params.maxPixels → 3 * u.pixcnt.toNat < reqBits s.blen.toNat →
    (∀ k, k < 3 * u.pixcnt.toNat → u.lsb k = t.lsb k) →
    ∃ v, exec .extract u = .next v ∧ v.errcode = .sentinelNotFound ∧ v.status.xstate = .exhausted ∧
      v.bits = BitVec.ofNat 24 (3 * u.pixcnt.toNat)

/-- In a legal build the outputs fit: EXTRACT's output check is dead, TENC's characters fit TEXT, TDEC's bytes fit
BYTES. -/
def Obligations.OutputsFitLegalBuild : Prop :=
  ∀ s : State, s.params.Legal →
    (∀ t, exec .extract s = .next t → s.pixcnt.toNat ≤ s.params.maxPixels → t.errcode ≠ .lengthInvalid) ∧
    (s.blen.toNat ≤ s.params.maxBytes → (b64Enc s.message).length ≤ s.params.maxText) ∧
    (s.tlen.toNat ≤ s.params.maxText → b64Valid s.textIn = true → (b64Dec s.textIn).length ≤ s.params.maxBytes)

/-! ### The whole machine -/

/-- The values of R230 after reset, and memories that hold the free contents of R232. The registers' values are the
spec's; that a location's free value is `Config.resetByte` at the model's count of resets is the model's form of it (log 3). -/
def Obligations.ResetValues : Prop :=
  State.reset.status.word = 0#32 ∧ State.reset.errcode.word = 0#32 ∧ State.reset.pixcnt = 0#32 ∧
  State.reset.blen = 0#32 ∧ State.reset.tlen = 0#32 ∧ State.reset.bits.setWidth 32 = 0#32 ∧
  State.reset.pending = none ∧ State.reset.params = { maxPixels := 65536, maxBytes := 18432 } ∧
  ∀ b a, State.reset.byteAt b a = Config.resetByte State.reset.resets b a

/-- A reset at any time, busy or idle: the registers at their reset values, a pending command abandoned, every memory
location unspecified anew (a free value at a count of resets no earlier reset used), and nothing outside the block
changed. -/
def Obligations.ResetTurn : Prop :=
  ∀ (s : State) (ts : List Turn), s.turns = .reset :: ts →
    ∃ t, step s = .next t ∧ t.status.word = 0#32 ∧ t.errcode = .none ∧ t.pixcnt = 0#32 ∧ t.blen = 0#32 ∧
      t.tlen = 0#32 ∧ t.bits = 0#24 ∧ t.pending = none ∧
      (∀ b a, t.byteAt b a = Config.resetByte (s.resets + 1) b a) ∧
      t.params = s.params ∧ t.host = s.host ∧ t.turns = ts ∧ t.responses = s.responses ∧ t.draws = s.draws

/-- The invariant of the block holds at reset. -/
def Obligations.InvHoldsAtReset : Prop := State.Inv State.reset

/-- Every step of every state keeps the invariant of the block. -/
def Obligations.StepKeepsInv : Prop := ∀ s t : State, s.Inv → step s = .next t → t.Inv

/-- Every accepted command comes to an end after finitely many steps, whatever turns are laid down, at most one more than
there are turns: with no reset among them it completes (DONE = 1), else a reset may abandon it, which then never
completes. That the ENGINE moves where no turn is laid down is the model's form of fairness (log 2). -/
def Obligations.PendingCommandCompletes : Prop :=
  ∀ s : State, s.Inv → s.status.busy = true →
    ∃ n t, n ≤ s.turns.length + 1 ∧ Host.Core.run Sys2Proof.core n s = .next t ∧ t.status.busy = false ∧
      t.pending = none ∧ (.reset ∉ s.turns → t.status.done = true)

/-- A HOST WAIT loop ends, whatever turns are laid down: at most two steps more than there are turns. -/
def Obligations.WaitLoopEnds : Prop :=
  ∀ (s : State) (rest : List HostOp), s.Inv → s.host = .wait :: rest →
    ∃ n t, n ≤ s.turns.length + 2 ∧ Host.Core.run Sys2Proof.core n s = .next t ∧ t.host = rest

/-- While a command is pending a HOST turn changes no input or output of it: of the block's state only BUSYWR can
change, and only from 0 to 1. -/
def Obligations.HostTurnWhileBusyKeepsState : Prop :=
  ∀ (s t : State) (ts : List Turn), s.status.busy = true → s.turns = .host :: ts → step s = .next t →
    t = { s with
      status := { s.status with busywr := t.status.busywr },
      draws := t.draws, host := t.host, turns := ts, responses := t.responses } ∧
    (s.status.busywr = true → t.status.busywr = true)

/-- From an idle state a step that is no reset either leaves STATUS, ERRCODE, BITS and PENDING as they are, or is the
HOST's write of a command word to CMD. -/
def Obligations.IdleStepIssuesOrKeepsStatus : Prop :=
  ∀ s t : State, s.status.busy = false → step s = .next t → t.resets = s.resets →
    (t.status = s.status ∧ t.errcode = s.errcode ∧ t.bits = s.bits ∧ t.pending = s.pending) ∨
    (∃ w, s.host = .request { kind := .wr, offset := 0x0000000#25, wdata := w } :: t.host ∧ t.pending = some w ∧
      t.errcode = .none ∧ t.bits = s.bits ∧
      t.status = { busy := true, done := false, err := false, busywr := false, xstate := .idle })

/-- BUSYWR is sticky: a step sets it only by a HOST write while busy, and clears it only by a command issue or a
reset. -/
def Obligations.BusywrSticky : Prop :=
  ∀ s t : State, step s = .next t →
    (s.status.busywr = false → t.status.busywr = true →
      s.status.busy = true ∧ ∃ r rest, s.host = .request r :: rest ∧ r.kind = .wr) ∧
    (s.status.busywr = true → t.status.busywr = false →
      t.resets = s.resets + 1 ∨ (s.status.busy = false ∧ t.status.busy = true))

/-- A memory byte changes only by a reset, by the completion of a command (never an alpha channel, and of PIX never at
or past PIXCNT), or by an idle HOST write of the word it lies in, which gives it that word's byte. -/
def Obligations.MemoryChangesOnlyBy : Prop :=
  ∀ (s t : State) (b : Bank) (a : Nat), step s = .next t → t.byteAt b a ≠ s.byteAt b a →
    t.resets = s.resets + 1 ∨
    (s.status.busy = true ∧ t.status.busy = false ∧ (b = .pix → a % 4 ≠ 3 ∧ a < 4 * s.pixcnt.toNat)) ∨
    (s.status.busy = false ∧ ∃ r rest, s.host = .request r :: rest ∧ r.kind = .wr ∧
      r.offset.toNat = windowBase b + 4 * (a / 4) ∧ t.byteAt b a = r.wdata.extractLsb' (8 * (a % 4)) 8)
end

