-- ==== Sys2Proof/Laws/State.lean ====
section
/-! SUPPORT. What every update of the state does to every field: one lemma per field per update, true by rfl, so that
no later proof unfolds a record update. -/

namespace Sys2Proof.Laws

open Sys2Proof Sys2Proof.Machine

/-! ### `finish(E)` -/

@[simp] theorem finish_params (s : State) (e : ErrCode) : (s.finish e).params = s.params := rfl
@[simp] theorem finish_status (s : State) (e : ErrCode) : (s.finish e).status = s.status.finish e := rfl
@[simp] theorem finish_errcode (s : State) (e : ErrCode) : (s.finish e).errcode = e := rfl
@[simp] theorem finish_pixcnt (s : State) (e : ErrCode) : (s.finish e).pixcnt = s.pixcnt := rfl
@[simp] theorem finish_blen (s : State) (e : ErrCode) : (s.finish e).blen = s.blen := rfl
@[simp] theorem finish_tlen (s : State) (e : ErrCode) : (s.finish e).tlen = s.tlen := rfl
@[simp] theorem finish_bits (s : State) (e : ErrCode) : (s.finish e).bits = s.bits := rfl
@[simp] theorem finish_pending (s : State) (e : ErrCode) : (s.finish e).pending = s.pending := rfl
@[simp] theorem finish_pix (s : State) (e : ErrCode) : (s.finish e).pix = s.pix := rfl
@[simp] theorem finish_bytes (s : State) (e : ErrCode) : (s.finish e).bytes = s.bytes := rfl
@[simp] theorem finish_text (s : State) (e : ErrCode) : (s.finish e).text = s.text := rfl
@[simp] theorem finish_resets (s : State) (e : ErrCode) : (s.finish e).resets = s.resets := rfl
@[simp] theorem finish_draws (s : State) (e : ErrCode) : (s.finish e).draws = s.draws := rfl
@[simp] theorem finish_host (s : State) (e : ErrCode) : (s.finish e).host = s.host := rfl
@[simp] theorem finish_turns (s : State) (e : ErrCode) : (s.finish e).turns = s.turns := rfl
@[simp] theorem finish_responses (s : State) (e : ErrCode) : (s.finish e).responses = s.responses := rfl

/-! ### `REG.STATUS.XSTATE <- x` -/

@[simp] theorem setXState_params (s : State) (x : XState) : (s.setXState x).params = s.params := rfl
@[simp] theorem setXState_status (s : State) (x : XState) : (s.setXState x).status = { s.status with xstate := x } := rfl
@[simp] theorem setXState_errcode (s : State) (x : XState) : (s.setXState x).errcode = s.errcode := rfl
@[simp] theorem setXState_pixcnt (s : State) (x : XState) : (s.setXState x).pixcnt = s.pixcnt := rfl
@[simp] theorem setXState_blen (s : State) (x : XState) : (s.setXState x).blen = s.blen := rfl
@[simp] theorem setXState_tlen (s : State) (x : XState) : (s.setXState x).tlen = s.tlen := rfl
@[simp] theorem setXState_bits (s : State) (x : XState) : (s.setXState x).bits = s.bits := rfl
@[simp] theorem setXState_pending (s : State) (x : XState) : (s.setXState x).pending = s.pending := rfl
@[simp] theorem setXState_pix (s : State) (x : XState) : (s.setXState x).pix = s.pix := rfl
@[simp] theorem setXState_bytes (s : State) (x : XState) : (s.setXState x).bytes = s.bytes := rfl
@[simp] theorem setXState_text (s : State) (x : XState) : (s.setXState x).text = s.text := rfl
@[simp] theorem setXState_resets (s : State) (x : XState) : (s.setXState x).resets = s.resets := rfl
@[simp] theorem setXState_draws (s : State) (x : XState) : (s.setXState x).draws = s.draws := rfl
@[simp] theorem setXState_host (s : State) (x : XState) : (s.setXState x).host = s.host := rfl
@[simp] theorem setXState_turns (s : State) (x : XState) : (s.setXState x).turns = s.turns := rfl
@[simp] theorem setXState_responses (s : State) (x : XState) : (s.setXState x).responses = s.responses := rfl

/-! ### `REG.BITS <- n` -/

@[simp] theorem setBits_params (s : State) (n : Nat) : (s.setBits n).params = s.params := rfl
@[simp] theorem setBits_status (s : State) (n : Nat) : (s.setBits n).status = s.status := rfl
@[simp] theorem setBits_errcode (s : State) (n : Nat) : (s.setBits n).errcode = s.errcode := rfl
@[simp] theorem setBits_pixcnt (s : State) (n : Nat) : (s.setBits n).pixcnt = s.pixcnt := rfl
@[simp] theorem setBits_blen (s : State) (n : Nat) : (s.setBits n).blen = s.blen := rfl
@[simp] theorem setBits_tlen (s : State) (n : Nat) : (s.setBits n).tlen = s.tlen := rfl
@[simp] theorem setBits_bits (s : State) (n : Nat) : (s.setBits n).bits = BitVec.ofNat 24 n := rfl
@[simp] theorem setBits_pending (s : State) (n : Nat) : (s.setBits n).pending = s.pending := rfl
@[simp] theorem setBits_pix (s : State) (n : Nat) : (s.setBits n).pix = s.pix := rfl
@[simp] theorem setBits_bytes (s : State) (n : Nat) : (s.setBits n).bytes = s.bytes := rfl
@[simp] theorem setBits_text (s : State) (n : Nat) : (s.setBits n).text = s.text := rfl
@[simp] theorem setBits_resets (s : State) (n : Nat) : (s.setBits n).resets = s.resets := rfl
@[simp] theorem setBits_draws (s : State) (n : Nat) : (s.setBits n).draws = s.draws := rfl
@[simp] theorem setBits_host (s : State) (n : Nat) : (s.setBits n).host = s.host := rfl
@[simp] theorem setBits_turns (s : State) (n : Nat) : (s.setBits n).turns = s.turns := rfl
@[simp] theorem setBits_responses (s : State) (n : Nat) : (s.setBits n).responses = s.responses := rfl

/-! ### `REG.BLEN <- n` -/

@[simp] theorem setBlen_params (s : State) (n : Nat) : (s.setBlen n).params = s.params := rfl
@[simp] theorem setBlen_status (s : State) (n : Nat) : (s.setBlen n).status = s.status := rfl
@[simp] theorem setBlen_errcode (s : State) (n : Nat) : (s.setBlen n).errcode = s.errcode := rfl
@[simp] theorem setBlen_pixcnt (s : State) (n : Nat) : (s.setBlen n).pixcnt = s.pixcnt := rfl
@[simp] theorem setBlen_blen (s : State) (n : Nat) : (s.setBlen n).blen = BitVec.ofNat 32 n := rfl
@[simp] theorem setBlen_tlen (s : State) (n : Nat) : (s.setBlen n).tlen = s.tlen := rfl
@[simp] theorem setBlen_bits (s : State) (n : Nat) : (s.setBlen n).bits = s.bits := rfl
@[simp] theorem setBlen_pending (s : State) (n : Nat) : (s.setBlen n).pending = s.pending := rfl
@[simp] theorem setBlen_pix (s : State) (n : Nat) : (s.setBlen n).pix = s.pix := rfl
@[simp] theorem setBlen_bytes (s : State) (n : Nat) : (s.setBlen n).bytes = s.bytes := rfl
@[simp] theorem setBlen_text (s : State) (n : Nat) : (s.setBlen n).text = s.text := rfl
@[simp] theorem setBlen_resets (s : State) (n : Nat) : (s.setBlen n).resets = s.resets := rfl
@[simp] theorem setBlen_draws (s : State) (n : Nat) : (s.setBlen n).draws = s.draws := rfl
@[simp] theorem setBlen_host (s : State) (n : Nat) : (s.setBlen n).host = s.host := rfl
@[simp] theorem setBlen_turns (s : State) (n : Nat) : (s.setBlen n).turns = s.turns := rfl
@[simp] theorem setBlen_responses (s : State) (n : Nat) : (s.setBlen n).responses = s.responses := rfl

/-! ### `REG.TLEN <- n` -/

@[simp] theorem setTlen_params (s : State) (n : Nat) : (s.setTlen n).params = s.params := rfl
@[simp] theorem setTlen_status (s : State) (n : Nat) : (s.setTlen n).status = s.status := rfl
@[simp] theorem setTlen_errcode (s : State) (n : Nat) : (s.setTlen n).errcode = s.errcode := rfl
@[simp] theorem setTlen_pixcnt (s : State) (n : Nat) : (s.setTlen n).pixcnt = s.pixcnt := rfl
@[simp] theorem setTlen_blen (s : State) (n : Nat) : (s.setTlen n).blen = s.blen := rfl
@[simp] theorem setTlen_tlen (s : State) (n : Nat) : (s.setTlen n).tlen = BitVec.ofNat 32 n := rfl
@[simp] theorem setTlen_bits (s : State) (n : Nat) : (s.setTlen n).bits = s.bits := rfl
@[simp] theorem setTlen_pending (s : State) (n : Nat) : (s.setTlen n).pending = s.pending := rfl
@[simp] theorem setTlen_pix (s : State) (n : Nat) : (s.setTlen n).pix = s.pix := rfl
@[simp] theorem setTlen_bytes (s : State) (n : Nat) : (s.setTlen n).bytes = s.bytes := rfl
@[simp] theorem setTlen_text (s : State) (n : Nat) : (s.setTlen n).text = s.text := rfl
@[simp] theorem setTlen_resets (s : State) (n : Nat) : (s.setTlen n).resets = s.resets := rfl
@[simp] theorem setTlen_draws (s : State) (n : Nat) : (s.setTlen n).draws = s.draws := rfl
@[simp] theorem setTlen_host (s : State) (n : Nat) : (s.setTlen n).host = s.host := rfl
@[simp] theorem setTlen_turns (s : State) (n : Nat) : (s.setTlen n).turns = s.turns := rfl
@[simp] theorem setTlen_responses (s : State) (n : Nat) : (s.setTlen n).responses = s.responses := rfl

/-! ### Command issue -/

@[simp] theorem issue_params (s : State) (w : Word) : (issue s w).params = s.params := rfl
@[simp] theorem issue_status (s : State) (w : Word) : (issue s w).status = s.status.issue := rfl
@[simp] theorem issue_errcode (s : State) (w : Word) : (issue s w).errcode = .none := rfl
@[simp] theorem issue_pixcnt (s : State) (w : Word) : (issue s w).pixcnt = s.pixcnt := rfl
@[simp] theorem issue_blen (s : State) (w : Word) : (issue s w).blen = s.blen := rfl
@[simp] theorem issue_tlen (s : State) (w : Word) : (issue s w).tlen = s.tlen := rfl
@[simp] theorem issue_bits (s : State) (w : Word) : (issue s w).bits = s.bits := rfl
@[simp] theorem issue_pending (s : State) (w : Word) : (issue s w).pending = some w := rfl
@[simp] theorem issue_pix (s : State) (w : Word) : (issue s w).pix = s.pix := rfl
@[simp] theorem issue_bytes (s : State) (w : Word) : (issue s w).bytes = s.bytes := rfl
@[simp] theorem issue_text (s : State) (w : Word) : (issue s w).text = s.text := rfl
@[simp] theorem issue_resets (s : State) (w : Word) : (issue s w).resets = s.resets := rfl
@[simp] theorem issue_draws (s : State) (w : Word) : (issue s w).draws = s.draws := rfl
@[simp] theorem issue_host (s : State) (w : Word) : (issue s w).host = s.host := rfl
@[simp] theorem issue_turns (s : State) (w : Word) : (issue s w).turns = s.turns := rfl
@[simp] theorem issue_responses (s : State) (w : Word) : (issue s w).responses = s.responses := rfl

/-! ### The end of the ENGINE step -/

@[simp] theorem retire_params (s : State) : (retire s).params = s.params := rfl
@[simp] theorem retire_status (s : State) : (retire s).status = s.status := rfl
@[simp] theorem retire_errcode (s : State) : (retire s).errcode = s.errcode := rfl
@[simp] theorem retire_pixcnt (s : State) : (retire s).pixcnt = s.pixcnt := rfl
@[simp] theorem retire_blen (s : State) : (retire s).blen = s.blen := rfl
@[simp] theorem retire_tlen (s : State) : (retire s).tlen = s.tlen := rfl
@[simp] theorem retire_bits (s : State) : (retire s).bits = s.bits := rfl
@[simp] theorem retire_pending (s : State) : (retire s).pending = none := rfl
@[simp] theorem retire_pix (s : State) : (retire s).pix = s.pix := rfl
@[simp] theorem retire_bytes (s : State) : (retire s).bytes = s.bytes := rfl
@[simp] theorem retire_text (s : State) : (retire s).text = s.text := rfl
@[simp] theorem retire_resets (s : State) : (retire s).resets = s.resets := rfl
@[simp] theorem retire_draws (s : State) : (retire s).draws = s.draws := rfl
@[simp] theorem retire_host (s : State) : (retire s).host = s.host := rfl
@[simp] theorem retire_turns (s : State) : (retire s).turns = s.turns := rfl
@[simp] theorem retire_responses (s : State) : (retire s).responses = s.responses := rfl

/-! ### A write while busy -/

@[simp] theorem lostWrite_params (s : State) : (lostWrite s).params = s.params := rfl
@[simp] theorem lostWrite_status (s : State) : (lostWrite s).status = s.status.lostWrite := rfl
@[simp] theorem lostWrite_errcode (s : State) : (lostWrite s).errcode = s.errcode := rfl
@[simp] theorem lostWrite_pixcnt (s : State) : (lostWrite s).pixcnt = s.pixcnt := rfl
@[simp] theorem lostWrite_blen (s : State) : (lostWrite s).blen = s.blen := rfl
@[simp] theorem lostWrite_tlen (s : State) : (lostWrite s).tlen = s.tlen := rfl
@[simp] theorem lostWrite_bits (s : State) : (lostWrite s).bits = s.bits := rfl
@[simp] theorem lostWrite_pending (s : State) : (lostWrite s).pending = s.pending := rfl
@[simp] theorem lostWrite_pix (s : State) : (lostWrite s).pix = s.pix := rfl
@[simp] theorem lostWrite_bytes (s : State) : (lostWrite s).bytes = s.bytes := rfl
@[simp] theorem lostWrite_text (s : State) : (lostWrite s).text = s.text := rfl
@[simp] theorem lostWrite_resets (s : State) : (lostWrite s).resets = s.resets := rfl
@[simp] theorem lostWrite_draws (s : State) : (lostWrite s).draws = s.draws := rfl
@[simp] theorem lostWrite_host (s : State) : (lostWrite s).host = s.host := rfl
@[simp] theorem lostWrite_turns (s : State) : (lostWrite s).turns = s.turns := rfl
@[simp] theorem lostWrite_responses (s : State) : (lostWrite s).responses = s.responses := rfl

/-! ### A draw taken -/

@[simp] theorem drawn_params (s : State) : (s.drawn).params = s.params := rfl
@[simp] theorem drawn_status (s : State) : (s.drawn).status = s.status := rfl
@[simp] theorem drawn_errcode (s : State) : (s.drawn).errcode = s.errcode := rfl
@[simp] theorem drawn_pixcnt (s : State) : (s.drawn).pixcnt = s.pixcnt := rfl
@[simp] theorem drawn_blen (s : State) : (s.drawn).blen = s.blen := rfl
@[simp] theorem drawn_tlen (s : State) : (s.drawn).tlen = s.tlen := rfl
@[simp] theorem drawn_bits (s : State) : (s.drawn).bits = s.bits := rfl
@[simp] theorem drawn_pending (s : State) : (s.drawn).pending = s.pending := rfl
@[simp] theorem drawn_pix (s : State) : (s.drawn).pix = s.pix := rfl
@[simp] theorem drawn_bytes (s : State) : (s.drawn).bytes = s.bytes := rfl
@[simp] theorem drawn_text (s : State) : (s.drawn).text = s.text := rfl
@[simp] theorem drawn_resets (s : State) : (s.drawn).resets = s.resets := rfl
@[simp] theorem drawn_draws (s : State) : (s.drawn).draws = s.draws + 1 := rfl
@[simp] theorem drawn_host (s : State) : (s.drawn).host = s.host := rfl
@[simp] theorem drawn_turns (s : State) : (s.drawn).turns = s.turns := rfl
@[simp] theorem drawn_responses (s : State) : (s.drawn).responses = s.responses := rfl

/-! ### A response delivered -/

@[simp] theorem deliver_params (s : State) (rest : List HostOp) (rsp : Response) : (deliver s rest rsp).params = s.params := rfl
@[simp] theorem deliver_status (s : State) (rest : List HostOp) (rsp : Response) : (deliver s rest rsp).status = s.status := rfl
@[simp] theorem deliver_errcode (s : State) (rest : List HostOp) (rsp : Response) : (deliver s rest rsp).errcode = s.errcode := rfl
@[simp] theorem deliver_pixcnt (s : State) (rest : List HostOp) (rsp : Response) : (deliver s rest rsp).pixcnt = s.pixcnt := rfl
@[simp] theorem deliver_blen (s : State) (rest : List HostOp) (rsp : Response) : (deliver s rest rsp).blen = s.blen := rfl
@[simp] theorem deliver_tlen (s : State) (rest : List HostOp) (rsp : Response) : (deliver s rest rsp).tlen = s.tlen := rfl
@[simp] theorem deliver_bits (s : State) (rest : List HostOp) (rsp : Response) : (deliver s rest rsp).bits = s.bits := rfl
@[simp] theorem deliver_pending (s : State) (rest : List HostOp) (rsp : Response) : (deliver s rest rsp).pending = s.pending := rfl
@[simp] theorem deliver_pix (s : State) (rest : List HostOp) (rsp : Response) : (deliver s rest rsp).pix = s.pix := rfl
@[simp] theorem deliver_bytes (s : State) (rest : List HostOp) (rsp : Response) : (deliver s rest rsp).bytes = s.bytes := rfl
@[simp] theorem deliver_text (s : State) (rest : List HostOp) (rsp : Response) : (deliver s rest rsp).text = s.text := rfl
@[simp] theorem deliver_resets (s : State) (rest : List HostOp) (rsp : Response) : (deliver s rest rsp).resets = s.resets := rfl
@[simp] theorem deliver_draws (s : State) (rest : List HostOp) (rsp : Response) : (deliver s rest rsp).draws = s.draws := rfl
@[simp] theorem deliver_host (s : State) (rest : List HostOp) (rsp : Response) : (deliver s rest rsp).host = rest := rfl
@[simp] theorem deliver_turns (s : State) (rest : List HostOp) (rsp : Response) : (deliver s rest rsp).turns = s.turns := rfl
@[simp] theorem deliver_responses (s : State) (rest : List HostOp) (rsp : Response) : (deliver s rest rsp).responses = s.responses ++ [rsp] := rfl

/-! ### A reset -/

@[simp] theorem resetBlock_params (s : State) : (resetBlock s).params = s.params := rfl
@[simp] theorem resetBlock_status (s : State) : (resetBlock s).status = Status.reset := rfl
@[simp] theorem resetBlock_errcode (s : State) : (resetBlock s).errcode = .none := rfl
@[simp] theorem resetBlock_pixcnt (s : State) : (resetBlock s).pixcnt = 0 := rfl
@[simp] theorem resetBlock_blen (s : State) : (resetBlock s).blen = 0 := rfl
@[simp] theorem resetBlock_tlen (s : State) : (resetBlock s).tlen = 0 := rfl
@[simp] theorem resetBlock_bits (s : State) : (resetBlock s).bits = 0 := rfl
@[simp] theorem resetBlock_pending (s : State) : (resetBlock s).pending = none := rfl
@[simp] theorem resetBlock_pix (s : State) : (resetBlock s).pix = [] := rfl
@[simp] theorem resetBlock_bytes (s : State) : (resetBlock s).bytes = [] := rfl
@[simp] theorem resetBlock_text (s : State) : (resetBlock s).text = [] := rfl
@[simp] theorem resetBlock_resets (s : State) : (resetBlock s).resets = s.resets + 1 := rfl
@[simp] theorem resetBlock_draws (s : State) : (resetBlock s).draws = s.draws := rfl
@[simp] theorem resetBlock_host (s : State) : (resetBlock s).host = s.host := rfl
@[simp] theorem resetBlock_turns (s : State) : (resetBlock s).turns = s.turns := rfl
@[simp] theorem resetBlock_responses (s : State) : (resetBlock s).responses = s.responses := rfl

/-! ### A command accepted, the ENGINE next -/

@[simp] theorem withCommand_params (s : State) (w : Word) : (s.withCommand w).params = s.params := rfl
@[simp] theorem withCommand_status (s : State) (w : Word) : (s.withCommand w).status = s.status.issue := rfl
@[simp] theorem withCommand_errcode (s : State) (w : Word) : (s.withCommand w).errcode = .none := rfl
@[simp] theorem withCommand_pixcnt (s : State) (w : Word) : (s.withCommand w).pixcnt = s.pixcnt := rfl
@[simp] theorem withCommand_blen (s : State) (w : Word) : (s.withCommand w).blen = s.blen := rfl
@[simp] theorem withCommand_tlen (s : State) (w : Word) : (s.withCommand w).tlen = s.tlen := rfl
@[simp] theorem withCommand_bits (s : State) (w : Word) : (s.withCommand w).bits = s.bits := rfl
@[simp] theorem withCommand_pending (s : State) (w : Word) : (s.withCommand w).pending = some w := rfl
@[simp] theorem withCommand_pix (s : State) (w : Word) : (s.withCommand w).pix = s.pix := rfl
@[simp] theorem withCommand_bytes (s : State) (w : Word) : (s.withCommand w).bytes = s.bytes := rfl
@[simp] theorem withCommand_text (s : State) (w : Word) : (s.withCommand w).text = s.text := rfl
@[simp] theorem withCommand_resets (s : State) (w : Word) : (s.withCommand w).resets = s.resets := rfl
@[simp] theorem withCommand_draws (s : State) (w : Word) : (s.withCommand w).draws = s.draws := rfl
@[simp] theorem withCommand_host (s : State) (w : Word) : (s.withCommand w).host = s.host := rfl
@[simp] theorem withCommand_turns (s : State) (w : Word) : (s.withCommand w).turns = .engine :: s.turns := rfl
@[simp] theorem withCommand_responses (s : State) (w : Word) : (s.withCommand w).responses = s.responses := rfl

/-! ### The turns to come -/

@[simp] theorem withTurns_params (s : State) (ts : List Turn) : (s.withTurns ts).params = s.params := rfl
@[simp] theorem withTurns_status (s : State) (ts : List Turn) : (s.withTurns ts).status = s.status := rfl
@[simp] theorem withTurns_errcode (s : State) (ts : List Turn) : (s.withTurns ts).errcode = s.errcode := rfl
@[simp] theorem withTurns_pixcnt (s : State) (ts : List Turn) : (s.withTurns ts).pixcnt = s.pixcnt := rfl
@[simp] theorem withTurns_blen (s : State) (ts : List Turn) : (s.withTurns ts).blen = s.blen := rfl
@[simp] theorem withTurns_tlen (s : State) (ts : List Turn) : (s.withTurns ts).tlen = s.tlen := rfl
@[simp] theorem withTurns_bits (s : State) (ts : List Turn) : (s.withTurns ts).bits = s.bits := rfl
@[simp] theorem withTurns_pending (s : State) (ts : List Turn) : (s.withTurns ts).pending = s.pending := rfl
@[simp] theorem withTurns_pix (s : State) (ts : List Turn) : (s.withTurns ts).pix = s.pix := rfl
@[simp] theorem withTurns_bytes (s : State) (ts : List Turn) : (s.withTurns ts).bytes = s.bytes := rfl
@[simp] theorem withTurns_text (s : State) (ts : List Turn) : (s.withTurns ts).text = s.text := rfl
@[simp] theorem withTurns_resets (s : State) (ts : List Turn) : (s.withTurns ts).resets = s.resets := rfl
@[simp] theorem withTurns_draws (s : State) (ts : List Turn) : (s.withTurns ts).draws = s.draws := rfl
@[simp] theorem withTurns_host (s : State) (ts : List Turn) : (s.withTurns ts).host = s.host := rfl
@[simp] theorem withTurns_turns (s : State) (ts : List Turn) : (s.withTurns ts).turns = ts := rfl
@[simp] theorem withTurns_responses (s : State) (ts : List Turn) : (s.withTurns ts).responses = s.responses := rfl

/-! ### The byte lists of the memories: every other field -/

@[simp] theorem setBank_params (s : State) (b : Bank) (m : Mem) : (s.setBank b m).params = s.params := by cases b <;> rfl
@[simp] theorem setBank_status (s : State) (b : Bank) (m : Mem) : (s.setBank b m).status = s.status := by cases b <;> rfl
@[simp] theorem setBank_errcode (s : State) (b : Bank) (m : Mem) : (s.setBank b m).errcode = s.errcode := by cases b <;> rfl
@[simp] theorem setBank_pixcnt (s : State) (b : Bank) (m : Mem) : (s.setBank b m).pixcnt = s.pixcnt := by cases b <;> rfl
@[simp] theorem setBank_blen (s : State) (b : Bank) (m : Mem) : (s.setBank b m).blen = s.blen := by cases b <;> rfl
@[simp] theorem setBank_tlen (s : State) (b : Bank) (m : Mem) : (s.setBank b m).tlen = s.tlen := by cases b <;> rfl
@[simp] theorem setBank_bits (s : State) (b : Bank) (m : Mem) : (s.setBank b m).bits = s.bits := by cases b <;> rfl
@[simp] theorem setBank_pending (s : State) (b : Bank) (m : Mem) : (s.setBank b m).pending = s.pending := by cases b <;> rfl
@[simp] theorem setBank_resets (s : State) (b : Bank) (m : Mem) : (s.setBank b m).resets = s.resets := by cases b <;> rfl
@[simp] theorem setBank_draws (s : State) (b : Bank) (m : Mem) : (s.setBank b m).draws = s.draws := by cases b <;> rfl
@[simp] theorem setBank_host (s : State) (b : Bank) (m : Mem) : (s.setBank b m).host = s.host := by cases b <;> rfl
@[simp] theorem setBank_turns (s : State) (b : Bank) (m : Mem) : (s.setBank b m).turns = s.turns := by cases b <;> rfl
@[simp] theorem setBank_responses (s : State) (b : Bank) (m : Mem) : (s.setBank b m).responses = s.responses := by cases b <;> rfl

@[simp] theorem writeBytes_params (s : State) (b : Bank) (a : Nat) (vs : List Byte) : (s.writeBytes b a vs).params = s.params := setBank_params ..
@[simp] theorem writeBytes_status (s : State) (b : Bank) (a : Nat) (vs : List Byte) : (s.writeBytes b a vs).status = s.status := setBank_status ..
@[simp] theorem writeBytes_errcode (s : State) (b : Bank) (a : Nat) (vs : List Byte) : (s.writeBytes b a vs).errcode = s.errcode := setBank_errcode ..
@[simp] theorem writeBytes_pixcnt (s : State) (b : Bank) (a : Nat) (vs : List Byte) : (s.writeBytes b a vs).pixcnt = s.pixcnt := setBank_pixcnt ..
@[simp] theorem writeBytes_blen (s : State) (b : Bank) (a : Nat) (vs : List Byte) : (s.writeBytes b a vs).blen = s.blen := setBank_blen ..
@[simp] theorem writeBytes_tlen (s : State) (b : Bank) (a : Nat) (vs : List Byte) : (s.writeBytes b a vs).tlen = s.tlen := setBank_tlen ..
@[simp] theorem writeBytes_bits (s : State) (b : Bank) (a : Nat) (vs : List Byte) : (s.writeBytes b a vs).bits = s.bits := setBank_bits ..
@[simp] theorem writeBytes_pending (s : State) (b : Bank) (a : Nat) (vs : List Byte) : (s.writeBytes b a vs).pending = s.pending := setBank_pending ..
@[simp] theorem writeBytes_resets (s : State) (b : Bank) (a : Nat) (vs : List Byte) : (s.writeBytes b a vs).resets = s.resets := setBank_resets ..
@[simp] theorem writeBytes_draws (s : State) (b : Bank) (a : Nat) (vs : List Byte) : (s.writeBytes b a vs).draws = s.draws := setBank_draws ..
@[simp] theorem writeBytes_host (s : State) (b : Bank) (a : Nat) (vs : List Byte) : (s.writeBytes b a vs).host = s.host := setBank_host ..
@[simp] theorem writeBytes_turns (s : State) (b : Bank) (a : Nat) (vs : List Byte) : (s.writeBytes b a vs).turns = s.turns := setBank_turns ..
@[simp] theorem writeBytes_responses (s : State) (b : Bank) (a : Nat) (vs : List Byte) : (s.writeBytes b a vs).responses = s.responses := setBank_responses ..

@[simp] theorem writeWord_params (s : State) (b : Bank) (w : Nat) (v : Word) : (s.writeWord b w v).params = s.params := setBank_params ..
@[simp] theorem writeWord_status (s : State) (b : Bank) (w : Nat) (v : Word) : (s.writeWord b w v).status = s.status := setBank_status ..
@[simp] theorem writeWord_errcode (s : State) (b : Bank) (w : Nat) (v : Word) : (s.writeWord b w v).errcode = s.errcode := setBank_errcode ..
@[simp] theorem writeWord_pixcnt (s : State) (b : Bank) (w : Nat) (v : Word) : (s.writeWord b w v).pixcnt = s.pixcnt := setBank_pixcnt ..
@[simp] theorem writeWord_blen (s : State) (b : Bank) (w : Nat) (v : Word) : (s.writeWord b w v).blen = s.blen := setBank_blen ..
@[simp] theorem writeWord_tlen (s : State) (b : Bank) (w : Nat) (v : Word) : (s.writeWord b w v).tlen = s.tlen := setBank_tlen ..
@[simp] theorem writeWord_bits (s : State) (b : Bank) (w : Nat) (v : Word) : (s.writeWord b w v).bits = s.bits := setBank_bits ..
@[simp] theorem writeWord_pending (s : State) (b : Bank) (w : Nat) (v : Word) : (s.writeWord b w v).pending = s.pending := setBank_pending ..
@[simp] theorem writeWord_resets (s : State) (b : Bank) (w : Nat) (v : Word) : (s.writeWord b w v).resets = s.resets := setBank_resets ..
@[simp] theorem writeWord_draws (s : State) (b : Bank) (w : Nat) (v : Word) : (s.writeWord b w v).draws = s.draws := setBank_draws ..
@[simp] theorem writeWord_host (s : State) (b : Bank) (w : Nat) (v : Word) : (s.writeWord b w v).host = s.host := setBank_host ..
@[simp] theorem writeWord_turns (s : State) (b : Bank) (w : Nat) (v : Word) : (s.writeWord b w v).turns = s.turns := setBank_turns ..
@[simp] theorem writeWord_responses (s : State) (b : Bank) (w : Nat) (v : Word) : (s.writeWord b w v).responses = s.responses := setBank_responses ..

/-! ### The memory that is read and the memory that is written -/

@[simp] theorem bank_setBank_same (s : State) (b : Bank) (m : Mem) : (s.setBank b m).bank b = m := by cases b <;> rfl

theorem bank_setBank_ne (s : State) (b b' : Bank) (m : Mem) (h : b' ≠ b) : (s.setBank b m).bank b' = s.bank b' := by
  cases b <;> cases b' <;> first | rfl | exact absurd rfl h

@[simp] theorem bank_pix (s : State) : s.bank .pix = s.pix := rfl
@[simp] theorem bank_bytes (s : State) : s.bank .bytes = s.bytes := rfl
@[simp] theorem bank_text (s : State) : s.bank .text = s.text := rfl

@[simp] theorem bank_finish (s : State) (e : ErrCode) (b : Bank) : (s.finish e).bank b = s.bank b := by cases b <;> rfl
@[simp] theorem bank_setXState (s : State) (x : XState) (b : Bank) : (s.setXState x).bank b = s.bank b := by cases b <;> rfl
@[simp] theorem bank_setBits (s : State) (n : Nat) (b : Bank) : (s.setBits n).bank b = s.bank b := by cases b <;> rfl
@[simp] theorem bank_issue (s : State) (w : Word) (b : Bank) : (issue s w).bank b = s.bank b := by cases b <;> rfl
@[simp] theorem bank_retire (s : State) (b : Bank) : (retire s).bank b = s.bank b := by cases b <;> rfl
@[simp] theorem bank_lostWrite (s : State) (b : Bank) : (lostWrite s).bank b = s.bank b := by cases b <;> rfl
@[simp] theorem bank_drawn (s : State) (b : Bank) : s.drawn.bank b = s.bank b := by cases b <;> rfl
@[simp] theorem bank_withTurns (s : State) (ts : List Turn) (b : Bank) : (s.withTurns ts).bank b = s.bank b := by cases b <;> rfl
@[simp] theorem bank_setBlen (s : State) (n : Nat) (b : Bank) : (s.setBlen n).bank b = s.bank b := by cases b <;> rfl
@[simp] theorem bank_setTlen (s : State) (n : Nat) (b : Bank) : (s.setTlen n).bank b = s.bank b := by cases b <;> rfl
@[simp] theorem bank_deliver (s : State) (rest : List HostOp) (rsp : Response) (b : Bank) :
    (deliver s rest rsp).bank b = s.bank b := by cases b <;> rfl
@[simp] theorem bank_resetBlock (s : State) (b : Bank) : (resetBlock s).bank b = [] := by cases b <;> rfl

@[simp] theorem byteAt_finish (s : State) (e : ErrCode) (b : Bank) (a : Nat) : (s.finish e).byteAt b a = s.byteAt b a := by
  cases b <;> rfl
@[simp] theorem byteAt_setXState (s : State) (x : XState) (b : Bank) (a : Nat) : (s.setXState x).byteAt b a = s.byteAt b a := by
  cases b <;> rfl
@[simp] theorem byteAt_setBits (s : State) (n : Nat) (b : Bank) (a : Nat) : (s.setBits n).byteAt b a = s.byteAt b a := by
  cases b <;> rfl
@[simp] theorem byteAt_setBlen (s : State) (n : Nat) (b : Bank) (a : Nat) : (s.setBlen n).byteAt b a = s.byteAt b a := by
  cases b <;> rfl
@[simp] theorem byteAt_setTlen (s : State) (n : Nat) (b : Bank) (a : Nat) : (s.setTlen n).byteAt b a = s.byteAt b a := by
  cases b <;> rfl
@[simp] theorem byteAt_withTurns (s : State) (ts : List Turn) (b : Bank) (a : Nat) : (s.withTurns ts).byteAt b a = s.byteAt b a := by
  cases b <;> rfl
@[simp] theorem byteAt_retire (s : State) (b : Bank) (a : Nat) : (retire s).byteAt b a = s.byteAt b a := by
  cases b <;> rfl
@[simp] theorem byteAt_deliver (s : State) (rest : List HostOp) (rsp : Response) (b : Bank) (a : Nat) :
    (deliver s rest rsp).byteAt b a = s.byteAt b a := by cases b <;> rfl

/-- What a byte reads as depends only on the memory it is in and on the reset it dates from. -/
theorem byteAt_congr (s t : State) (b : Bank) (a : Nat) (hr : t.resets = s.resets) (hb : t.bank b = s.bank b) :
    t.byteAt b a = s.byteAt b a := by simp only [State.byteAt, hr, hb]

/-! ### The flags -/

@[simp] theorem status_finish_busy (st : Status) (e : ErrCode) : (st.finish e).busy = false := rfl
@[simp] theorem status_finish_done (st : Status) (e : ErrCode) : (st.finish e).done = true := rfl
@[simp] theorem status_finish_err (st : Status) (e : ErrCode) : (st.finish e).err = decide (e ≠ .none) := rfl
@[simp] theorem status_finish_busywr (st : Status) (e : ErrCode) : (st.finish e).busywr = st.busywr := rfl
@[simp] theorem status_finish_xstate (st : Status) (e : ErrCode) : (st.finish e).xstate = st.xstate := rfl
@[simp] theorem status_issue_eq (st : Status) : st.issue =
    { busy := true, done := false, err := false, busywr := false, xstate := .idle } := rfl
@[simp] theorem status_lostWrite_busywr (st : Status) : st.lostWrite.busywr = true := rfl
@[simp] theorem status_lostWrite_busy (st : Status) : st.lostWrite.busy = st.busy := rfl
@[simp] theorem status_lostWrite_done (st : Status) : st.lostWrite.done = st.done := rfl
@[simp] theorem status_lostWrite_err (st : Status) : st.lostWrite.err = st.err := rfl
@[simp] theorem status_lostWrite_xstate (st : Status) : st.lostWrite.xstate = st.xstate := rfl

end Sys2Proof.Laws
end

