-- ==== Sys2Proof/Laws/Memory.lean ====
section
/-! SUPPORT. The memories: a read after a write, what a write leaves alone, and the canonical form. -/

namespace Sys2Proof.Laws

open Sys2Proof Sys2Proof.Machine

/-! ### One byte -/

theorem read?_write_same (m : Mem) (a : Nat) (v : Byte) : Mem.read? (Mem.write m a v) a = some v := by
  induction m with
  | nil => simp [Mem.write, Mem.read?]
  | cons c m ih =>
    obtain ⟨b, w⟩ := c
    simp only [Mem.write]
    split
    · simp [Mem.read?]
    · split
      · simp [Mem.read?]
      · next h1 h2 => simp [Mem.read?, h2, ih]

theorem read?_write_ne (m : Mem) (a a' : Nat) (v : Byte) (h : a' ≠ a) :
    Mem.read? (Mem.write m a v) a' = Mem.read? m a' := by
  induction m with
  | nil => simp [Mem.write, Mem.read?, h]
  | cons c m ih =>
    obtain ⟨b, w⟩ := c
    simp only [Mem.write]
    split
    · simp [Mem.read?, h]
    · split
      · next _ hb => subst hb; simp [Mem.read?, h]
      · simp only [Mem.read?]; rw [ih]

theorem byteAt_write_same (e : Nat) (b : Bank) (m : Mem) (a : Nat) (v : Byte) :
    Mem.byteAt e b (Mem.write m a v) a = v := by simp only [Mem.byteAt, read?_write_same]

theorem byteAt_write_ne (e : Nat) (b : Bank) (m : Mem) (a a' : Nat) (v : Byte) (h : a' ≠ a) :
    Mem.byteAt e b (Mem.write m a v) a' = Mem.byteAt e b m a' := by simp only [Mem.byteAt, read?_write_ne m a a' v h]

/-! ### Bytes at rising indexes -/

theorem byteAt_writeAll_outside (e : Nat) (b : Bank) (vs : List Byte) :
    ∀ (m : Mem) (a a' : Nat), a' < a ∨ a + vs.length ≤ a' →
      Mem.byteAt e b (Mem.writeAll m a vs) a' = Mem.byteAt e b m a' := by
  induction vs with
  | nil => intro m a a' _; rfl
  | cons v vs ih =>
    intro m a a' h
    simp only [List.length_cons] at h
    rw [Mem.writeAll, ih _ _ _ (by omega), byteAt_write_ne _ _ _ _ _ _ (by omega)]

theorem byteAt_writeAll_inside (e : Nat) (b : Bank) (vs : List Byte) :
    ∀ (m : Mem) (a i : Nat) (h : i < vs.length), Mem.byteAt e b (Mem.writeAll m a vs) (a + i) = vs[i] := by
  induction vs with
  | nil => intro m a i h; simp at h
  | cons v vs ih =>
    intro m a i h
    rw [Mem.writeAll]
    cases i with
    | zero => rw [byteAt_writeAll_outside _ _ _ _ _ _ (by omega), Nat.add_zero, byteAt_write_same]; rfl
    | succ i =>
      have h' : i < vs.length := by simpa using h
      rw [show a + (i + 1) = a + 1 + i by omega, ih _ _ _ h']; rfl

/-! ### The canonical form -/

theorem risesFrom_mono {lo lo' : Nat} (h : lo' ≤ lo) {m : Mem} (hm : Mem.risesFrom lo m = true) :
    Mem.risesFrom lo' m = true := by
  cases m with
  | nil => rfl
  | cons c m =>
    simp only [Mem.risesFrom, Bool.and_eq_true, decide_eq_true_eq] at hm ⊢
    exact ⟨by omega, hm.2⟩

theorem risesFrom_write (m : Mem) (a : Nat) (v : Byte) :
    ∀ lo, lo ≤ a → Mem.risesFrom lo m = true → Mem.risesFrom lo (Mem.write m a v) = true := by
  induction m with
  | nil => intro lo h _; simp [Mem.write, Mem.risesFrom, h]
  | cons c m ih =>
    obtain ⟨b, w⟩ := c
    intro lo h hm
    simp only [Mem.risesFrom, Bool.and_eq_true, decide_eq_true_eq] at hm
    simp only [Mem.write]
    split
    · simp only [Mem.risesFrom, Bool.and_eq_true, decide_eq_true_eq]
      exact ⟨h, by omega, hm.2⟩
    · split
      · next hb => subst hb; simp [Mem.risesFrom, h, hm.2]
      · simp only [Mem.risesFrom, Bool.and_eq_true, decide_eq_true_eq]
        exact ⟨hm.1, ih _ (by omega) hm.2⟩

/-- A write of one byte keeps the canonical form. -/
theorem wf_write (m : Mem) (a : Nat) (v : Byte) (h : Mem.wf m = true) : Mem.wf (Mem.write m a v) = true :=
  risesFrom_write m a v 0 (Nat.zero_le a) h

/-- Writes at rising indexes keep the canonical form. -/
theorem wf_writeAll (vs : List Byte) : ∀ (m : Mem) (a : Nat), Mem.wf m = true → Mem.wf (Mem.writeAll m a vs) = true := by
  induction vs with
  | nil => intro m a h; exact h
  | cons v vs ih => intro m a h; exact ih _ _ (wf_write m a v h)

/-- The carrier writes of EMBED keep the canonical form. -/
theorem wf_embedFrom (e : Nat) (bs : List Bool) :
    ∀ (m : Mem) (k : Nat), Mem.wf m = true → Mem.wf (Mem.embedFrom e m k bs) = true := by
  induction bs with
  | nil => intro m k h; exact h
  | cons b bs ih => intro m k h; exact ih _ _ (wf_write m _ _ h)

/-- Reset memory has the canonical form. -/
theorem reset_wf (b : Bank) : Mem.wf (State.reset.bank b) = true := by cases b <;> rfl

/-! ### The addresses listed -/

theorem below_write (n : Nat) (m : Mem) (a : Nat) (v : Byte) (ha : a < n) (h : Mem.below n m = true) :
    Mem.below n (Mem.write m a v) = true := by
  induction m with
  | nil => simp [Mem.write, Mem.below, ha]
  | cons c m ih =>
    obtain ⟨b, w⟩ := c
    simp only [Mem.below, List.all_cons, Bool.and_eq_true, decide_eq_true_eq] at h
    simp only [Mem.write]
    split
    · simpa [Mem.below, ha] using h
    · split
      · simpa [Mem.below, ha] using h.2
      · simp only [Mem.below, List.all_cons, Bool.and_eq_true, decide_eq_true_eq]
        exact ⟨h.1, ih h.2⟩

theorem below_writeAll (n : Nat) (vs : List Byte) :
    ∀ (m : Mem) (a : Nat), a + vs.length ≤ n → Mem.below n m = true → Mem.below n (Mem.writeAll m a vs) = true := by
  induction vs with
  | nil => intro m a _ h; exact h
  | cons v vs ih =>
    intro m a ha h
    simp only [List.length_cons] at ha
    exact ih _ _ (by omega) (below_write n m a v (by omega) h)

theorem below_embedFrom (n e : Nat) (bs : List Bool) :
    ∀ (m : Mem) (k : Nat), (∀ j, j < k + bs.length → carrierIndex j < n) → Mem.below n m = true →
      Mem.below n (Mem.embedFrom e m k bs) = true := by
  induction bs with
  | nil => intro m k _ h; exact h
  | cons b bs ih =>
    intro m k hk h
    simp only [List.length_cons] at hk
    exact ih _ _ (fun j hj => hk j (by omega)) (below_write n m _ _ (hk k (by omega)) h)

/-! ### The same for a state -/

/-- The byte lists after a write of bytes. -/
theorem bank_writeBytes (s : State) (b b' : Bank) (a : Nat) (vs : List Byte) :
    (s.writeBytes b a vs).bank b' = if b' = b then Mem.writeAll (s.bank b) a vs else s.bank b' := by
  split
  · next h => subst h; exact bank_setBank_same ..
  · next h => exact bank_setBank_ne _ _ _ _ h

theorem byteAt_writeBytes_inside (s : State) (b : Bank) (a : Nat) (vs : List Byte) (i : Nat) (h : i < vs.length) :
    (s.writeBytes b a vs).byteAt b (a + i) = vs[i] := by
  simp only [State.byteAt, bank_writeBytes, if_true, byteAt_writeAll_inside, h]

theorem byteAt_writeBytes_outside (s : State) (b b' : Bank) (a a' : Nat) (vs : List Byte)
    (h : b' = b → a' < a ∨ a + vs.length ≤ a') : (s.writeBytes b a vs).byteAt b' a' = s.byteAt b' a' := by
  simp only [State.byteAt, bank_writeBytes, writeBytes_resets]
  split
  · next hb => subst hb; exact byteAt_writeAll_outside _ _ _ _ _ _ (h rfl)
  · rfl

/-! ### Words -/

/-- Byte `j` of the word made of four bytes is the `j`-th of them. -/
theorem wordByte_bytesWord (b0 b1 b2 b3 : Byte) :
    wordByte (bytesWord b0 b1 b2 b3) 0 = b0 ∧ wordByte (bytesWord b0 b1 b2 b3) 1 = b1 ∧
    wordByte (bytesWord b0 b1 b2 b3) 2 = b2 ∧ wordByte (bytesWord b0 b1 b2 b3) 3 = b3 := by
  refine ⟨?_, ?_, ?_, ?_⟩ <;>
  · ext i hi
    interval_cases i <;> simp [wordByte, bytesWord]

/-- A word is made of its four bytes. -/
theorem bytesWord_wordByte (v : Word) :
    bytesWord (wordByte v 0) (wordByte v 1) (wordByte v 2) (wordByte v 3) = v := by
  ext i hi
  interval_cases i <;> simp [wordByte, bytesWord]

/-- A word write followed by a read of that word. -/
theorem readWord_writeWord_same (s : State) (b : Bank) (w : Nat) (v : Word) :
    (s.writeWord b w v).readWord b w = v := by
  have h : ∀ i, (hi : i < 4) → (s.writeWord b w v).byteAt b (4 * w + i) = wordByte v i := by
    intro i hi
    rw [State.writeWord, byteAt_writeBytes_inside s b _ (wordBytes v) i (by simpa [wordBytes] using hi)]
    interval_cases i <;> rfl
  have h0 := h 0 (by omega)
  rw [Nat.add_zero] at h0
  rw [State.readWord, h0, h 1 (by omega), h 2 (by omega), h 3 (by omega), bytesWord_wordByte]

/-- A word write leaves every byte outside the word alone. -/
theorem byteAt_writeWord_outside (s : State) (b b' : Bank) (w a : Nat) (v : Word)
    (h : b' = b → a < 4 * w ∨ 4 * w + 4 ≤ a) : (s.writeWord b w v).byteAt b' a = s.byteAt b' a :=
  byteAt_writeBytes_outside s b b' _ _ _ h

/-- A word write gives each byte of the word its part of the data. -/
theorem byteAt_writeWord_inside (s : State) (b : Bank) (w a : Nat) (v : Word) (h1 : 4 * w ≤ a) (h2 : a < 4 * w + 4) :
    (s.writeWord b w v).byteAt b a = v.extractLsb' (8 * (a % 4)) 8 := by
  obtain ⟨j, rfl⟩ : ∃ j, a = 4 * w + j := ⟨a - 4 * w, by omega⟩
  have hj : j < 4 := by omega
  rw [State.writeWord, byteAt_writeBytes_inside s b _ (wordBytes v) j hj, show (4 * w + j) % 4 = j by omega]
  interval_cases j <;> rfl

end Sys2Proof.Laws
end

