-- ==== Sys2Proof/Laws/Bus.lean ====
section
/-! SUPPORT. The HOST's transactions: the address map, and what a read, a write and a HOST turn can do. -/

namespace Sys2Proof.Laws

open Sys2Proof Sys2Proof.Machine

/-! ### The address map (20_memory.md R51, R52) -/

/-- A register's offset names it. -/
@[simp] theorem decodeOffset_regOffset (p : Params) (r : Reg) : decodeOffset p (regOffset r) = some (.reg r) := by
  cases r <;> rfl

/-- Below the memories' windows an aligned offset names a register up to 0x18, and nothing above it. -/
theorem regAt_eq_none_iff (o : Nat) (h : o % 4 = 0) : regAt o = none ↔ 0x18 < o := by
  constructor
  · intro hr
    simp only [regAt] at hr
    by_contra hlt
    have hle : o ≤ 0x18 := by omega
    interval_cases o <;> simp at h hr
  · intro hr
    simp only [regAt]
    split <;> first | omega | rfl

/-- Exactly the misaligned and the unmapped offsets name nothing. -/
theorem decodeOffset_eq_none_iff (p : Params) (o : Offset) :
    decodeOffset p o = none ↔ o.toNat % 4 ≠ 0 ∨ ¬ Mapped p o.toNat := by
  simp only [decodeOffset, Mapped]
  by_cases ha : o.toNat % 4 = 0
  · simp only [ha, ne_eq, not_true_eq_false, if_false, false_or]
    cases hr : regAt o.toNat with
    | some r =>
      have : ¬ 0x18 < o.toNat := fun h => by rw [(regAt_eq_none_iff _ ha).mpr h] at hr; cases hr
      simp; omega
    | none =>
      have := (regAt_eq_none_iff _ ha).mp hr
      have hin : ∀ b, inWindow p b o.toNat = true ↔
          windowBase b ≤ o.toNat ∧ o.toNat < windowBase b + Params.bankSize p b := by
        intro b; simp only [inWindow, Bool.and_eq_true, decide_eq_true_eq]
      have hb := hin .bytes
      have ht := hin .text
      have hx := hin .pix
      simp only [windowBase, Params.bankSize] at hb ht hx
      by_cases h1 : inWindow p .bytes o.toNat = true
      · rw [if_pos h1]; simp only [reduceCtorEq, false_iff]; have := hb.mp h1; omega
      · by_cases h2 : inWindow p .text o.toNat = true
        · rw [if_neg h1, if_pos h2]; simp only [reduceCtorEq, false_iff]; have := ht.mp h2; omega
        · by_cases h3 : inWindow p .pix o.toNat = true
          · rw [if_neg h1, if_neg h2, if_pos h3]; simp only [reduceCtorEq, false_iff]; have := hx.mp h3; omega
          · rw [if_neg h1, if_neg h2, if_neg h3]; simp only [true_iff]
            have n1 := mt hb.mpr h1
            have n2 := mt ht.mpr h2
            have n3 := mt hx.mpr h3
            omega
  · simp [ha]

/-- A word of a memory inside its window has an offset that names it. -/
theorem decodeOffset_windowOffset (p : Params) (b : Bank) (w : Nat) (hp : p.Legal)
    (hw : 4 * w < Params.bankSize p b) : decodeOffset p (windowOffset b (4 * w)) = some (.word b w) := by
  obtain ⟨_, h2, _, _, h5, _⟩ := hp
  have hb : windowBase b + 4 * w < 2 ^ 25 := by
    cases b <;> simp only [windowBase, Params.bankSize, Params.maxText] at hw ⊢ <;> omega
  have ho : (windowOffset b (4 * w)).toNat = windowBase b + 4 * w := by
    simp only [windowOffset, BitVec.toNat_ofNat, Nat.mod_eq_of_lt hb]
  have ha : (windowBase b + 4 * w) % 4 = 0 := by cases b <;> simp only [windowBase] <;> omega
  have hr : regAt (windowBase b + 4 * w) = none :=
    (regAt_eq_none_iff _ ha).mpr (by cases b <;> simp only [windowBase] <;> omega)
  have hin : inWindow p b (windowBase b + 4 * w) = true := by
    simp only [inWindow, Bool.and_eq_true, decide_eq_true_eq]; omega
  have hout : ∀ b', b' ≠ b → inWindow p b' (windowBase b + 4 * w) = false := by
    intro b' hb'
    simp only [inWindow, Bool.and_eq_false_iff, decide_eq_false_iff_not]
    cases b <;> cases b' <;> simp only [windowBase, Params.bankSize, Params.maxText, ne_eq, not_true_eq_false] at * <;>
      omega
  simp only [decodeOffset, ho, ha, hr, windowWord]
  cases b
  · simp [hout .bytes, hout .text, hin]
  · simp [hin]
  · simp [hout .bytes, hin]

/-- Only offset 0 names CMD. -/
theorem decodeOffset_eq_cmd (p : Params) (o : Offset) (h : decodeOffset p o = some (.reg .cmd)) : o = 0#25 := by
  simp only [decodeOffset] at h
  split at h
  · cases h
  · split at h
    · next r hr =>
      cases h
      simp only [regAt] at hr
      split at hr <;> first | exact BitVec.eq_of_toNat_eq (by assumption) | cases hr
    · split_ifs at h <;> cases h

/-- An offset that names a word of a memory is that word's, and the word lies in the memory. -/
theorem decodeOffset_eq_word (p : Params) (o : Offset) (b : Bank) (w : Nat) (h : decodeOffset p o = some (.word b w)) :
    o.toNat = windowBase b + 4 * w ∧ 4 * w < Params.bankSize p b := by
  simp only [decodeOffset] at h
  split at h
  · cases h
  · next ha =>
    split at h
    · cases h
    · split_ifs at h with h1 h2 h3 <;> cases h
      · simp [inWindow] at h1; simp only [windowBase] at *; omega
      · simp [inWindow] at h2; simp only [windowBase] at *; omega
      · simp [inWindow] at h3; simp only [windowBase] at *; omega

/-! ### One transaction -/

/-- A read is answered and changes nothing but the count of draws (R55). -/
theorem hostRead_state (s : State) (o : Offset) :
    (hostRead s o).2 = s ∨ (hostRead s o).2 = s.drawn := by
  simp only [hostRead]
  split
  · exact .inl rfl
  · split
    · simp only [busyRead]
      split
      · exact .inr rfl
      · split
        · simp only [busyStatusRead]
          split
          · exact .inr rfl
          · exact .inl rfl
        · exact .inl rfl
    · exact .inl rfl

/-- A write changes nothing, records that it was lost, or is an idle write to the target it names (R164, R165). -/
theorem hostWrite_cases (s : State) (o : Offset) (v : Word) :
    (decodeOffset s.params o = none ∧ hostWrite s o v = (errResponse, s)) ∨
    (∃ t, decodeOffset s.params o = some t ∧ s.status.busy = true ∧ hostWrite s o v = (okData 0#32, lostWrite s)) ∨
    (∃ t, decodeOffset s.params o = some t ∧ s.status.busy = false ∧ hostWrite s o v = (okData 0#32, idleWrite s t v)) := by
  simp only [hostWrite]
  cases ht : decodeOffset s.params o with
  | none => exact .inl ⟨rfl, rfl⟩
  | some t =>
    cases hb : s.status.busy with
    | true => exact .inr (.inl ⟨t, rfl, rfl, by simp⟩)
    | false => exact .inr (.inr ⟨t, rfl, rfl, by simp⟩)

/-- A transaction is a read or a write of its offset. -/
theorem transact_rd (s : State) (o : Offset) (v : Word) :
    transact s { kind := .rd, offset := o, wdata := v } = hostRead s o := rfl

theorem transact_wr (s : State) (o : Offset) (v : Word) :
    transact s { kind := .wr, offset := o, wdata := v } = hostWrite s o v := rfl

/-- An idle write changes nothing outside the block's registers and memories. -/
theorem idleWrite_outside (s : State) (t : Target) (v : Word) :
    (idleWrite s t v).params = s.params ∧ (idleWrite s t v).resets = s.resets ∧ (idleWrite s t v).draws = s.draws ∧
    (idleWrite s t v).host = s.host ∧ (idleWrite s t v).turns = s.turns ∧
    (idleWrite s t v).responses = s.responses := by
  cases t with
  | reg r => cases r <;> exact ⟨rfl, rfl, rfl, rfl, rfl, rfl⟩
  | word b w => simp [idleWrite]

/-- A transaction changes nothing outside the block: not the build, the count of resets, what the HOST does next, the
turns, or the responses received. -/
theorem transact_outside (s : State) (r : Request) :
    (transact s r).2.params = s.params ∧ (transact s r).2.resets = s.resets ∧ (transact s r).2.host = s.host ∧
    (transact s r).2.turns = s.turns ∧ (transact s r).2.responses = s.responses := by
  obtain ⟨k, o, v⟩ := r
  cases k with
  | rd =>
    rcases hostRead_state s o with h | h <;> simp [transact_rd, h]
  | wr =>
    rcases hostWrite_cases s o v with ⟨_, h⟩ | ⟨_, _, _, h⟩ | ⟨t, _, _, h⟩
    · simp [transact_wr, h]
    · simp [transact_wr, h]
    · have := idleWrite_outside s t v; simp [transact_wr, h, this]

/-- The pending command is what the pending word decodes to. -/
theorem pendingInstr_of_pending (s : State) (w : Word) (h : s.pending = some w) :
    s.pendingInstr = match decode w with | .ok i => some i | .error _ => none := by
  cases hd : decode w <;> simp only [State.pendingInstr, h, hd]

/-! ### A HOST turn -/

theorem hostTurn_nil (s : State) (h : s.host = []) : hostTurn s = s := by simp [hostTurn, h]

theorem hostTurn_request (s : State) (r : Request) (rest : List HostOp) (h : s.host = .request r :: rest) :
    hostTurn s = deliver (transact s r).2 rest (transact s r).1 := by simp [hostTurn, h, HostOp.toRequest, HostOp.isOver]

theorem hostTurn_wait (s : State) (rest : List HostOp) (h : s.host = .wait :: rest) :
    hostTurn s = deliver (hostRead s statusOffset).2
      (if (hostRead s statusOffset).1.rdata.getLsbD 0 then .wait :: rest else rest) (hostRead s statusOffset).1 := by
  unfold hostTurn
  rw [h]
  show deliver (hostRead s statusOffset).2
    (if !(hostRead s statusOffset).1.rdata.getLsbD 0 then rest else .wait :: rest) (hostRead s statusOffset).1 = _
  cases (hostRead s statusOffset).1.rdata.getLsbD 0 <;> rfl

/-- A HOST turn with something to do is its transaction and the delivery of the answer; a request is then over. -/
theorem hostTurn_cons (s : State) (op : HostOp) (rest : List HostOp) (h : s.host = op :: rest) :
    ∃ l rsp, hostTurn s = deliver (transact s op.toRequest).2 l rsp ∧ (∀ r, op = .request r → l = rest) := by
  simp only [hostTurn, h]
  refine ⟨_, _, rfl, ?_⟩
  rintro r rfl
  rfl

end Sys2Proof.Laws
end

