-- ==== Sys2Proof/Laws/Codec.lean ====
section
/-! SUPPORT. The Transport Codec: the alphabet, one group and one quartet, and what TENC and TDEC can do. -/

namespace Sys2Proof.Laws

open Sys2Proof Sys2Proof.Machine

/-! ### The alphabet (40_transport_codec.md R100) -/

/-- Every symbol value is the value of its byte. -/
@[simp] theorem val?_sym (v : BitVec 6) : val? (sym v) = some v := by
  revert v; decide +kernel

/-- Every symbol byte is the byte of its value. -/
theorem sym_of_val? (s : Byte) (v : BitVec 6) (h : val? s = some v) : sym v = s := by
  have all : ∀ s : Byte, (val? s).all (fun v => sym v == s) = true := by decide +kernel
  simpa [h] using all s

@[simp] theorem isSym_sym (v : BitVec 6) : isSym (sym v) = true := by simp [isSym]

@[simp] theorem quartetVal_sym (v : BitVec 6) : quartetVal (sym v) = v := by simp [quartetVal]

theorem sym_quartetVal (s : Byte) (h : isSym s = true) : sym (quartetVal s) = s := by
  obtain ⟨v, hv⟩ := Option.isSome_iff_exists.mp h
  simp [quartetVal, hv, sym_of_val? s v hv]

@[simp] theorem isSym_padByte : isSym padByte = false := by decide

@[simp] theorem quartetVal_padByte : quartetVal padByte = 0#6 := by decide

theorem sym_ne_padByte (v : BitVec 6) : sym v ≠ padByte := by
  intro h; simpa [h] using isSym_sym v

theorem ne_padByte_of_isSym {s : Byte} (h : isSym s = true) : s ≠ padByte := by
  rintro rfl; simp at h

/-! ### One group of three bytes and one quartet of four characters -/

/-- The 24 bits of a quartet of symbols hold their four values, most significant first. -/
theorem quartetBits_fields (s0 s1 s2 s3 : Byte) :
    (quartetBits s0 s1 s2 s3).extractLsb' 18 6 = quartetVal s0 ∧
    (quartetBits s0 s1 s2 s3).extractLsb' 12 6 = quartetVal s1 ∧
    (quartetBits s0 s1 s2 s3).extractLsb' 6 6 = quartetVal s2 ∧
    (quartetBits s0 s1 s2 s3).extractLsb' 0 6 = quartetVal s3 := by
  refine ⟨?_, ?_, ?_, ?_⟩ <;>
  · ext i hi
    interval_cases i <;> simp [quartetBits]

/-- The 24 bits of a group hold its three bytes, first byte most significant. -/
theorem groupBits_fields (b0 b1 b2 : Byte) :
    (groupBits b0 b1 b2).extractLsb' 16 8 = b0 ∧ (groupBits b0 b1 b2).extractLsb' 8 8 = b1 ∧
    (groupBits b0 b1 b2).extractLsb' 0 8 = b2 := by
  refine ⟨?_, ?_, ?_⟩ <;>
  · ext i hi
    interval_cases i <;> simp [groupBits]

/-- A quartet of symbols of the four 6-bit fields of `x` has the bits of `x`. -/
theorem quartetBits_groupSyms (x : BitVec 24) :
    quartetBits (sym (x.extractLsb' 18 6)) (sym (x.extractLsb' 12 6)) (sym (x.extractLsb' 6 6))
      (sym (x.extractLsb' 0 6)) = x := by
  simp only [quartetBits, quartetVal_sym]
  ext i hi
  interval_cases i <;> simp

/-- A group made of the three bytes of `x` has the bits of `x`. -/
theorem groupBits_of_fields (x : BitVec 24) :
    groupBits (x.extractLsb' 16 8) (x.extractLsb' 8 8) (x.extractLsb' 0 8) = x := by
  ext i hi
  interval_cases i <;> simp [groupBits]

/-- The encoder on a full group. -/
theorem b64Enc_group (b0 b1 b2 : Byte) (rest : List Byte) :
    b64Enc (b0 :: b1 :: b2 :: rest) =
      sym ((groupBits b0 b1 b2).extractLsb' 18 6) :: sym ((groupBits b0 b1 b2).extractLsb' 12 6) ::
      sym ((groupBits b0 b1 b2).extractLsb' 6 6) :: sym ((groupBits b0 b1 b2).extractLsb' 0 6) :: b64Enc rest := rfl

/-- The decoder on a quartet. -/
theorem b64Dec_quartet (s0 s1 s2 s3 : Byte) (rest : List Byte) :
    b64Dec (s0 :: s1 :: s2 :: s3 :: rest) = quartetBytes s0 s1 s2 s3 ++ b64Dec rest := rfl

/-- A quartet gives at most three bytes. -/
theorem quartetBytes_length_le (s0 s1 s2 s3 : Byte) : (quartetBytes s0 s1 s2 s3).length ≤ 3 := by
  simp only [quartetBytes]; split <;> [simp; (split <;> simp)]

/-- The validity check on a quartet followed by at least one more byte: conditions 1 to 3 of R103, one quartet in. -/
theorem b64Valid_quartet (s0 s1 s2 s3 s4 : Byte) (rest : List Byte) :
    b64Valid (s0 :: s1 :: s2 :: s3 :: s4 :: rest) =
      ((isSym s0 && isSym s1 && isSym s2 && isSym s3) && b64Valid (s4 :: rest)) := by
  by_cases hm : (s4 :: rest).length % 4 = 0
  · have hlen : 4 ≤ (s4 :: rest).length := by
      simp only [List.length_cons] at hm ⊢; omega
    have h1 : (s0 :: s1 :: s2 :: s3 :: s4 :: rest).length - 4 = ((s4 :: rest).length - 4) + 4 := by
      simp only [List.length_cons] at hlen ⊢; omega
    have h2 : (s0 :: s1 :: s2 :: s3 :: s4 :: rest).length % 4 = 0 := by
      simp only [List.length_cons] at hm ⊢; omega
    have h3 : ¬ (s0 :: s1 :: s2 :: s3 :: s4 :: rest).length < 4 := by simp
    have h4 : ¬ (s4 :: rest).length < 4 := by omega
    simp only [b64Valid, h1, h2, hm, h3, h4, List.take_succ_cons, List.drop_succ_cons, List.all_cons, decide_false,
      Bool.false_or, beq_self_eq_true, Bool.true_and]
    simp only [Bool.and_assoc]
  · have h2 : ¬ (s0 :: s1 :: s2 :: s3 :: s4 :: rest).length % 4 = 0 := by
      simp only [List.length_cons] at hm ⊢; omega
    have e1 : ((s4 :: rest).length % 4 == 0) = false := by simpa using hm
    have e2 : ((s0 :: s1 :: s2 :: s3 :: s4 :: rest).length % 4 == 0) = false := by simpa using h2
    simp only [b64Valid, e1, e2, Bool.false_and, Bool.and_false]

/-! ### What the commands can do -/

/-- TENC answers a next state: one of its two ends (R106). -/
theorem execTenc_cases (s : State) :
    (s.params.maxBytes < s.blen.toNat ∧ execTenc s = .next (s.finish .lengthInvalid)) ∨
    (s.blen.toNat ≤ s.params.maxBytes ∧
      execTenc s = .next (((s.writeBytes .text 0 (b64Enc s.message)).setTlen (b64Enc s.message).length).finish .none)) := by
  simp only [execTenc, raise, complete]
  split
  · next h => exact .inl ⟨h, rfl⟩
  · next h => exact .inr ⟨by omega, rfl⟩

/-- TDEC answers a next state: one of its three ends (R107). -/
theorem execTdec_cases (s : State) :
    (s.params.maxText < s.tlen.toNat ∧ execTdec s = .next (s.finish .lengthInvalid)) ∨
    (s.tlen.toNat ≤ s.params.maxText ∧ b64Valid s.textIn = false ∧
      execTdec s = .next (s.finish .malformedPayload)) ∨
    (s.tlen.toNat ≤ s.params.maxText ∧ b64Valid s.textIn = true ∧
      execTdec s = .next (((s.writeBytes .bytes 0 (b64Dec s.textIn)).setBlen (b64Dec s.textIn).length).finish .none)) := by
  simp only [execTdec, raise, complete]
  split
  · next h => exact .inl ⟨h, rfl⟩
  · next h =>
    split
    · next hv => exact .inr (.inl ⟨by omega, hv, rfl⟩)
    · next hv => exact .inr (.inr ⟨by omega, by simpa using hv, rfl⟩)

end Sys2Proof.Laws
end

