-- ==== Sys2Proof/Laws/Embed.lean ====
section
/-! SUPPORT. The Bit-Channel Embedder: which byte each bit position is carried by, what the mux writes, and what EMBED
can do. -/

namespace Sys2Proof.Laws

open Sys2Proof Sys2Proof.Machine

/-- Two bit positions have two carriers (41_embedder.md R122). -/
theorem carrierIndex_inj {j k : Nat} (h : carrierIndex j = carrierIndex k) : j = k := by
  simp only [carrierIndex] at h; omega

/-- A carrier of a pixel buffer of `n` pixels lies in it. -/
theorem carrierIndex_lt {k n : Nat} (h : k < 3 * n) : carrierIndex k < 4 * n := by
  simp only [carrierIndex]; omega

/-- No carrier is an alpha channel. -/
theorem carrierIndex_ne_alpha (k p : Nat) : carrierIndex k ≠ 4 * p + 3 := by
  simp only [carrierIndex]; omega

/-- A channel of a pixel is the carrier of its bit position. -/
theorem carrierIndex_channel (p c : Nat) (hc : c < 3) : carrierIndex (3 * p + c) = 4 * p + c := by
  simp only [carrierIndex]; omega

/-- The channel update writes the bit and keeps bits 7 to 1 (R122). -/
theorem putLsb_bits (ch : Byte) (bit : Bool) :
    (putLsb ch bit).getLsbD 0 = bit ∧ putLsb ch bit &&& 0xFE#8 = ch &&& 0xFE#8 := by
  revert ch bit; decide +kernel

/-- Writing the same bit again changes nothing. -/
theorem putLsb_putLsb (ch : Byte) (b b' : Bool) : putLsb (putLsb ch b) b' = putLsb ch b' := by
  revert ch b b'; decide +kernel

/-- The mux leaves every byte alone that carries none of its bit positions. -/
theorem byteAt_embedFrom_outside (e : Nat) (bs : List Bool) :
    ∀ (m : Mem) (k a : Nat), (∀ j, k ≤ j → j < k + bs.length → a ≠ carrierIndex j) →
      Mem.byteAt e .pix (Mem.embedFrom e m k bs) a = Mem.byteAt e .pix m a := by
  induction bs with
  | nil => intro m k a _; rfl
  | cons b bs ih =>
    intro m k a h
    simp only [List.length_cons] at h
    rw [Mem.embedFrom, ih _ _ _ (fun j h1 h2 => h j (by omega) (by omega)),
      byteAt_write_ne _ _ _ _ _ _ (h k (by omega) (by omega))]

/-- The mux writes each bit of the stream into its carrier's LSB. -/
theorem byteAt_embedFrom_inside (e : Nat) (bs : List Bool) :
    ∀ (m : Mem) (k i : Nat) (h : i < bs.length),
      Mem.byteAt e .pix (Mem.embedFrom e m k bs) (carrierIndex (k + i)) =
        putLsb (Mem.byteAt e .pix m (carrierIndex (k + i))) bs[i] := by
  induction bs with
  | nil => intro m k i h; simp at h
  | cons b bs ih =>
    intro m k i h
    rw [Mem.embedFrom]
    cases i with
    | zero =>
      rw [byteAt_embedFrom_outside _ _ _ _ _ (fun j h1 _ hj => by have := carrierIndex_inj hj; omega), Nat.add_zero,
        byteAt_write_same]
      rfl
    | succ i =>
      have h' : i < bs.length := by simpa using h
      rw [show k + (i + 1) = k + 1 + i by omega, ih _ _ _ h', byteAt_write_ne]
      · rfl
      · intro hj; have := carrierIndex_inj hj; omega

/-- EMBED answers a next state: one of its three ends (R124). -/
theorem execEmbed_cases (s : State) :
    ((s.params.maxPixels < s.pixcnt.toNat ∨ s.params.maxBytes < s.blen.toNat) ∧
      execEmbed s = .next (s.finish .lengthInvalid)) ∨
    (s.pixcnt.toNat ≤ s.params.maxPixels ∧ s.blen.toNat ≤ s.params.maxBytes ∧
      s.carriers < (ser (b64Enc s.message)).length ∧
      execEmbed s = .next ((s.setBits (ser (b64Enc s.message)).length).finish .capacityExceeded)) ∨
    (s.pixcnt.toNat ≤ s.params.maxPixels ∧ s.blen.toNat ≤ s.params.maxBytes ∧
      (ser (b64Enc s.message)).length ≤ s.carriers ∧
      execEmbed s = .next (((s.setBits (ser (b64Enc s.message)).length).setBank .pix
        (Mem.embedFrom s.resets s.pix 0 (ser (b64Enc s.message)))).finish .none)) := by
  simp only [execEmbed, raise, complete]
  split
  · next h => exact .inl ⟨h, rfl⟩
  · next h =>
    split
    · next hc => exact .inr (.inl ⟨by omega, by omega, hc, rfl⟩)
    · next hc => exact .inr (.inr ⟨by omega, by omega, by omega, rfl⟩)

end Sys2Proof.Laws
end

