-- ==== Sys2Proof/Laws/Extract.lean ====
section
/-! SUPPORT. The Bit-Channel Extractor: the sentinel detector, the scan, the grouping, and what EXTRACT can do. -/

namespace Sys2Proof.Laws

open Sys2Proof Sys2Proof.Machine

/-- The first `k` bits of `f`, newest first: the accumulator after `k` positions. -/
def accOf (f : Nat → Bool) : Nat → List Bool
  | 0 => []
  | k + 1 => f k :: accOf f k

@[simp] theorem accOf_length (f : Nat → Bool) (k : Nat) : (accOf f k).length = k := by
  induction k with
  | zero => rfl
  | succ k ih => simp [accOf, ih]

theorem accOf_getElem? (f : Nat → Bool) : ∀ (k j : Nat), j < k → (accOf f k)[j]? = some (f (k - 1 - j)) := by
  intro k
  induction k with
  | zero => intro j h; omega
  | succ k ih =>
    intro j h
    cases j with
    | zero => simp [accOf]
    | succ j =>
      have := ih j (by omega)
      simp only [accOf, List.getElem?_cons_succ, this]
      congr 2; omega

/-- The accumulator in reading order. -/
theorem accOf_reverse (f : Nat → Bool) (k : Nat) : (accOf f k).reverse = (List.range k).map f := by
  induction k with
  | zero => rfl
  | succ k ih => simp [accOf, ih, List.range_succ]

/-- The detector says that the last 16 bits are the sentinel (42_extractor.md R141). -/
theorem endsInSentinel_iff (f : Nat → Bool) (L : Nat) : endsInSentinel (accOf f L) = true ↔ SentinelAt f L := by
  simp only [endsInSentinel, beq_iff_eq]
  constructor
  · intro h
    have h16 : 16 ≤ L := by
      have := congrArg List.length h
      simp [sentinel] at this; omega
    refine ⟨h16, fun j hj => ?_⟩
    have hg : ((accOf f L).take 16)[15 - j]? = sentinel.reverse[15 - j]? := by rw [h]
    rw [List.getElem?_take_of_lt (by omega), accOf_getElem? f L _ (by omega)] at hg
    rw [show L - 16 + j = L - 1 - (15 - j) by omega]
    interval_cases j <;> simpa [sentinel] using hg
  · rintro ⟨h16, h⟩
    apply List.ext_getElem?
    intro i
    by_cases hi : i < 16
    · rw [List.getElem?_take_of_lt hi, accOf_getElem? f L i (by omega)]
      have := h (15 - i) (by omega)
      rw [show L - 16 + (15 - i) = L - 1 - i by omega] at this
      rw [this]
      interval_cases i <;> rfl
    · rw [List.getElem?_eq_none (by simp; omega), List.getElem?_eq_none (by simp [sentinel]; omega)]

/-- The scan from position `k`, with no match up to `k`: it stops at the first match, or finds none. -/
theorem scan_from (f : Nat → Bool) : ∀ (left k : Nat), (∀ L, L ≤ k → ¬ SentinelAt f L) →
    (scan f left k (accOf f k) = none ∧ ∀ L, L ≤ k + left → ¬ SentinelAt f L) ∨
    ∃ L, scan f left k (accOf f k) = some ((List.range L).map f) ∧ FirstMatch f (k + left) L := by
  intro left
  induction left with
  | zero => intro k h; exact .inl ⟨rfl, h⟩
  | succ left ih =>
    intro k h
    have hacc : f k :: accOf f k = accOf f (k + 1) := rfl
    simp only [scan, hacc]
    by_cases hs : endsInSentinel (accOf f (k + 1)) = true
    · refine .inr ⟨k + 1, ?_, by omega, (endsInSentinel_iff f _).mp hs, fun L' hL' => h L' (by omega)⟩
      rw [if_pos hs, accOf_reverse]
    · rw [if_neg hs]
      have h' : ∀ L, L ≤ k + 1 → ¬ SentinelAt f L := by
        intro L hL
        by_cases hk : L ≤ k
        · exact h L hk
        · obtain rfl : L = k + 1 := by omega
          exact fun hm => hs ((endsInSentinel_iff f _).mpr hm)
      rcases ih (k + 1) h' with ⟨h1, h2⟩ | ⟨L, h1, h2⟩
      · exact .inl ⟨h1, fun L hL => h2 L (by omega)⟩
      · exact .inr ⟨L, h1, by simpa [Nat.add_assoc, Nat.add_comm 1] using h2⟩

/-- The scan of a buffer (R140 to R143): no match among its bits, or the accumulator at the first one. -/
theorem scan_cases (f : Nat → Bool) (n : Nat) :
    (scan f n 0 [] = none ∧ ∀ L, L ≤ n → ¬ SentinelAt f L) ∨
    ∃ L, scan f n 0 [] = some ((List.range L).map f) ∧ FirstMatch f n L := by
  have h := scan_from f n 0 (fun L hL hm => by have := hm.1; omega)
  simpa [accOf] using h

/-- There is one first match. -/
theorem firstMatch_unique {f : Nat → Bool} {n L L' : Nat} (h : FirstMatch f n L) (h' : FirstMatch f n L') : L = L' := by
  rcases Nat.lt_trichotomy L L' with hl | hl | hl
  · exact absurd h.2.1 (h'.2.2 L hl)
  · exact hl
  · exact absurd h'.2.1 (h.2.2 L' hl)

/-- The scan at a first match. -/
theorem scan_of_firstMatch {f : Nat → Bool} {n L : Nat} (h : FirstMatch f n L) :
    scan f n 0 [] = some ((List.range L).map f) := by
  rcases scan_cases f n with ⟨_, h2⟩ | ⟨L', h1, h2⟩
  · exact absurd h.2.1 (h2 L h.1)
  · rw [h1, firstMatch_unique h2 h]

/-- The scan of a buffer without a match. -/
theorem scan_of_noMatch {f : Nat → Bool} {n : Nat} (h : ∀ L, L ≤ n → ¬ SentinelAt f L) : scan f n 0 [] = none := by
  rcases scan_cases f n with ⟨h1, _⟩ | ⟨L', _, h2⟩
  · exact h1
  · exact absurd h2.2.1 (h L' h2.1)

/-- One character from its bits is their weighted sum (R145). -/
theorem byteOfBits_eq (b7 b6 b5 b4 b3 b2 b1 b0 : Bool) :
    byteOfBits b7 b6 b5 b4 b3 b2 b1 b0 =
      BitVec.ofNat 8 (b7.toNat * 128 + b6.toNat * 64 + b5.toNat * 32 + b4.toNat * 16 + b3.toNat * 8 + b2.toNat * 4 +
        b1.toNat * 2 + b0.toNat) := by
  revert b7 b6 b5 b4 b3 b2 b1 b0; decide +kernel

/-- A character is the byte whose bits it was expanded to (30_encoding.md R76). -/
theorem byteOfBits_bits (b : Byte) :
    byteOfBits (b.getLsbD 7) (b.getLsbD 6) (b.getLsbD 5) (b.getLsbD 4) (b.getLsbD 3) (b.getLsbD 2) (b.getLsbD 1)
      (b.getLsbD 0) = b := by
  revert b; decide +kernel

/-- Grouping the first `8n` bits of `f` gives its first `n` characters. -/
theorem groupBytes_range (f : Nat → Bool) : ∀ (n k : Nat),
    groupBytes ((List.range' (8 * k) (8 * n)).map f) = (List.range' k n).map (charOf f) := by
  intro n
  induction n with
  | zero => intro k; rfl
  | succ n ih =>
    intro k
    have h8 : 8 * (n + 1) = 8 * n + 1 + 1 + 1 + 1 + 1 + 1 + 1 + 1 := by omega
    rw [h8]
    simp only [List.range'_succ, List.map_cons, groupBytes]
    rw [byteOfBits_eq, show 8 * k + 1 + 1 + 1 + 1 + 1 + 1 + 1 + 1 = 8 * (k + 1) by omega, ih (k + 1)]
    rfl

/-- The payload of a first match at `L`: its characters, in the statements' own words. -/
theorem groupBytes_payload (f : Nat → Bool) (L : Nat) (h : (L - 16) % 8 = 0) :
    groupBytes (((List.range L).map f).take (L - 16)) = charsOf f (L - 16) := by
  have hn : L - 16 = 8 * ((L - 16) / 8) := by omega
  rw [← List.map_take, List.take_range, Nat.min_eq_left (by omega), charsOf, List.range_eq_range', List.range_eq_range']
  conv_lhs => rw [hn]
  exact groupBytes_range f _ 0

/-- EXTRACT answers a next state: one of its six ends (R146, R147). -/
theorem execExtract_cases (s : State) :
    (s.params.maxPixels < s.pixcnt.toNat ∧
      execExtract s = .next ((s.setXState .failed).finish .lengthInvalid)) ∨
    (s.pixcnt.toNat ≤ s.params.maxPixels ∧ (∀ L, L ≤ s.carriers → ¬ SentinelAt s.lsb L) ∧
      execExtract s = .next (((s.setBits s.carriers).setXState .exhausted).finish .sentinelNotFound)) ∨
    ∃ L, s.pixcnt.toNat ≤ s.params.maxPixels ∧ FirstMatch s.lsb s.carriers L ∧
      (((L - 16) % 8 ≠ 0 ∧
        execExtract s = .next (((s.setBits L).setXState .failed).finish .malformedPayload)) ∨
      ((L - 16) % 8 = 0 ∧ b64Valid (charsOf s.lsb (L - 16)) = false ∧
        execExtract s = .next (((s.setBits L).setXState .failed).finish .malformedPayload)) ∨
      ((L - 16) % 8 = 0 ∧ b64Valid (charsOf s.lsb (L - 16)) = true ∧
        s.params.maxBytes < (b64Dec (charsOf s.lsb (L - 16))).length ∧
        execExtract s = .next (((s.setBits L).setXState .failed).finish .lengthInvalid)) ∨
      ((L - 16) % 8 = 0 ∧ b64Valid (charsOf s.lsb (L - 16)) = true ∧
        (b64Dec (charsOf s.lsb (L - 16))).length ≤ s.params.maxBytes ∧
        execExtract s = .next (((((s.setBits L).writeBytes .bytes 0 (b64Dec (charsOf s.lsb (L - 16)))).setBlen
          (b64Dec (charsOf s.lsb (L - 16))).length).setXState .done).finish .none))) := by
  simp only [execExtract]
  split
  · next h => exact .inl ⟨h, rfl⟩
  · next h =>
    refine .inr ?_
    rcases scan_cases s.lsb s.carriers with ⟨h1, h2⟩ | ⟨L, h1, h2⟩
    · rw [h1]; exact .inl ⟨by omega, h2, rfl⟩
    · rw [h1]
      refine .inr ⟨L, by omega, h2, ?_⟩
      have hlen : ((List.range L).map s.lsb).length = L := by simp
      have hpay : (((List.range L).map s.lsb).take (L - 16)).length = L - 16 := by simp
      simp only [hlen, hpay]
      split
      · next ha => exact .inl ⟨ha, rfl⟩
      · next ha =>
        have ha : (L - 16) % 8 = 0 := by simpa using ha
        rw [groupBytes_payload s.lsb L ha]
        split
        · next hv => exact .inr (.inl ⟨ha, hv, rfl⟩)
        · next hv =>
          have hv : b64Valid (charsOf s.lsb (L - 16)) = true := by simpa using hv
          split
          · next ho => exact .inr (.inr (.inl ⟨ha, hv, ho, rfl⟩))
          · next ho => exact .inr (.inr (.inr ⟨ha, hv, by omega, rfl⟩))

end Sys2Proof.Laws
end

