-- ==== Sys2Proof/Laws/Engine.lean ====
section
/-! SUPPORT. Commands as a whole, the ENGINE's turn and the step. -/

namespace Sys2Proof.Laws

open Sys2Proof Sys2Proof.Machine

/-- What every command may do (30_encoding.md R74): it writes STATUS, ERRCODE, BITS, BLEN, TLEN, PIX, BYTES and TEXT,
and completes; everything else stays. -/
theorem exec_cases (i : Instr) (s : State) :
    ∃ t e x, exec i s = .next t ∧ t.errcode = e ∧ t.status = { s.status.finish e with xstate := x } ∧
      t = { s with status := t.status, errcode := e, bits := t.bits, blen := t.blen, tlen := t.tlen, pix := t.pix,
                   bytes := t.bytes, text := t.text } := by
  cases i with
  | nop => exact ⟨_, _, _, rfl, rfl, rfl, rfl⟩
  | embed =>
    rcases execEmbed_cases s with ⟨_, h⟩ | ⟨_, _, _, h⟩ | ⟨_, _, _, h⟩ <;> exact ⟨_, _, _, h, rfl, rfl, rfl⟩
  | extract =>
    rcases execExtract_cases s with ⟨_, h⟩ | ⟨_, _, h⟩ |
      ⟨L, _, _, ⟨_, h⟩ | ⟨_, _, h⟩ | ⟨_, _, _, h⟩ | ⟨_, _, _, h⟩⟩ <;> exact ⟨_, _, _, h, rfl, rfl, rfl⟩
  | tenc =>
    rcases execTenc_cases s with ⟨_, h⟩ | ⟨_, h⟩ <;> exact ⟨_, _, _, h, rfl, rfl, rfl⟩
  | tdec =>
    rcases execTdec_cases s with ⟨_, h⟩ | ⟨_, _, h⟩ | ⟨_, _, h⟩ <;> exact ⟨_, _, _, h, rfl, rfl, rfl⟩

/-- The word of an illegal command raises ILLEGAL_COMMAND (43_control.md R162). -/
theorem runCommand_cases (w : Word) (s : State) :
    (∃ i, decode w = .ok i ∧ runCommand w s = exec i s) ∨
    (∃ e, decode w = .error e ∧ runCommand w s = .next (s.finish .illegalCommand)) := by
  simp only [runCommand]
  cases h : decode w with
  | ok i => exact .inl ⟨i, rfl, rfl⟩
  | error e => exact .inr ⟨e, rfl, rfl⟩

/-- The ENGINE's turn on a pending word (R166). -/
theorem engineTurn_pending (s : State) (w : Word) (hb : s.status.busy = true) (hp : s.pending = some w) :
    engineTurn s = retireResult (runCommand w s) := by simp [engineTurn, hb, hp]

/-- The ENGINE's turn while idle changes nothing (R166, 60_exceptions.md R214). -/
theorem engineTurn_idle (s : State) (hb : s.status.busy = false) : engineTurn s = .next s := by
  simp [engineTurn, hb]

/-- Everything the ENGINE's turn can do (R166): nothing while idle or without a pending word, or the command's end. -/
theorem engineTurn_cases (s : State) :
    (s.status.busy = false ∧ engineTurn s = .next s) ∨
    (s.status.busy = true ∧ s.pending = none ∧ engineTurn s = .next s) ∨
    (s.status.busy = true ∧ ∃ w i t, s.pending = some w ∧ decode w = .ok i ∧ exec i s = .next t ∧
      engineTurn s = .next (retire t)) ∨
    (s.status.busy = true ∧ ∃ w e, s.pending = some w ∧ decode w = .error e ∧
      engineTurn s = .next (retire (s.finish .illegalCommand))) := by
  cases hb : s.status.busy with
  | false => exact .inl ⟨rfl, engineTurn_idle s hb⟩
  | true =>
    cases hp : s.pending with
    | none => exact .inr (.inl ⟨rfl, rfl, by simp [engineTurn, hb, hp]⟩)
    | some w =>
      rw [engineTurn_pending s w hb hp]
      rcases runCommand_cases w s with ⟨i, hi, h⟩ | ⟨e, he, h⟩
      · obtain ⟨t, _, _, ht, _⟩ := exec_cases i s
        exact .inr (.inr (.inl ⟨rfl, w, i, t, rfl, hi, ht, by rw [h, ht]; rfl⟩))
      · exact .inr (.inr (.inr ⟨rfl, w, e, rfl, he, by rw [h]; rfl⟩))

/-! ### The step, by whose turn it is -/

theorem step_engine (s : State) (ts : List Turn) (h : s.turns = .engine :: ts) :
    step s = engineTurn (s.withTurns ts) := by simp [step, oneStep, nextTurn, h, runTurn]

theorem step_host (s : State) (ts : List Turn) (h : s.turns = .host :: ts) :
    step s = .next (hostTurn (s.withTurns ts)) := by simp [step, oneStep, nextTurn, h, runTurn]

theorem step_reset (s : State) (ts : List Turn) (h : s.turns = .reset :: ts) :
    step s = .next (resetBlock (s.withTurns ts)) := by simp [step, oneStep, nextTurn, h, runTurn]

theorem step_nil_busy (s : State) (h : s.turns = []) (hb : s.status.busy = true) : step s = engineTurn s := by
  have hs : s.withTurns [] = s := by rw [← h]; rfl
  simp [step, oneStep, nextTurn, h, hb, runTurn, hs]

theorem step_nil_idle (s : State) (h : s.turns = []) (hb : s.status.busy = false) : step s = .next (hostTurn s) := by
  have hs : s.withTurns [] = s := by rw [← h]; rfl
  simp [step, oneStep, nextTurn, h, hb, runTurn, hs]

/-- The HOST's turn, laid down or by default while idle (log 2). -/
theorem step_hostTurn (s : State) (ts : List Turn)
    (h : s.turns = .host :: ts ∨ (s.turns = [] ∧ ts = [] ∧ s.status.busy = false)) :
    step s = .next (hostTurn (s.withTurns ts)) := by
  rcases h with h | ⟨h, rfl, hb⟩
  · exact step_host s ts h
  · rw [step_nil_idle s h hb, show s.withTurns [] = s by rw [← h]; rfl]

/-- The ENGINE's turn, laid down or by default while busy (log 2). -/
theorem step_engineTurn (s : State) (ts : List Turn)
    (h : s.turns = .engine :: ts ∨ (s.turns = [] ∧ ts = [] ∧ s.status.busy = true)) :
    step s = engineTurn (s.withTurns ts) := by
  rcases h with h | ⟨h, rfl, hb⟩
  · exact step_engine s ts h
  · rw [step_nil_busy s h hb, show s.withTurns [] = s by rw [← h]; rfl]

/-- One step is the HOST's turn, the ENGINE's, or a reset, of the state with that turn taken off. -/
theorem step_cases (s : State) : ∃ ts,
    (step s = .next (hostTurn (s.withTurns ts)) ∧ (s.turns = [] → s.status.busy = false)) ∨
    (step s = engineTurn (s.withTurns ts)) ∨
    (step s = .next (resetBlock (s.withTurns ts)) ∧ s.turns = .reset :: ts) := by
  cases h : s.turns with
  | nil =>
    have hs : s.withTurns [] = s := by rw [← h]; rfl
    cases hb : s.status.busy with
    | true => exact ⟨[], .inr (.inl (by rw [hs]; exact step_nil_busy s h hb))⟩
    | false => exact ⟨[], .inl ⟨by rw [hs]; exact step_nil_idle s h hb, fun _ => rfl⟩⟩
  | cons t ts =>
    cases t with
    | host => exact ⟨ts, .inl ⟨step_host s ts h, fun h' => by cases h'⟩⟩
    | engine => exact ⟨ts, .inr (.inl (step_engine s ts h))⟩
    | reset => exact ⟨ts, .inr (.inr ⟨step_reset s ts h, rfl⟩)⟩

/-- A placed command runs at the very next step, and nothing is left of the placing but its effect. -/
theorem step_withCommand (s : State) (w : Word) :
    step (s.withCommand w) = retireResult (runCommand w (issue s w)) := by
  rw [step_engine (s.withCommand w) s.turns rfl]
  exact engineTurn_pending _ w rfl rfl

end Sys2Proof.Laws
end

