-- ==== Sys2Proof/Laws/PerInstr.lean ====
section
/-! SUPPORT. What holds of every command as syntax, one lemma per constructor (LAWS.json "per_instruction"). -/

namespace Sys2Proof.Laws.LegalWord

/-- A command is well-formed, its word has RSV = 0, and the decoder reads the word back as the command
(30_encoding.md R70, R71). -/
def Statement (i : Instr) : Prop :=
  i.wellFormed = true ∧ rsvField (encode i) = 0#28 ∧ decode (encode i) = .ok i

theorem nop : Statement .nop := by unfold Statement; decide
theorem embed : Statement .embed := by unfold Statement; decide
theorem extract : Statement .extract := by unfold Statement; decide
theorem tenc : Statement .tenc := by unfold Statement; decide
theorem tdec : Statement .tdec := by unfold Statement; decide

end Sys2Proof.Laws.LegalWord
end

