-- ==== Sys2Proof/Tests/Slice0.lean ====
section
/-! SUPPORT. The model's own tests, expected results from spec/95_test_vectors.md and spec/30_encoding.md, and for
every statement with hypotheses a witness that something meets them. -/

namespace Sys2Proof.Tests

open Sys2Proof Sys2Proof.Machine

/-! ### Helpers -/

/-- A field of the state a command or a step answers. -/
def got {α : Type} (r : Result) (f : State → α) : Option α :=
  match r with
  | .next t => some (f t)
  | .fault _ => none
  | .refused _ => none

/-- A small legal build: 16 pixels and 12 bytes. -/
def smallBuild : Params := { maxPixels := 16, maxBytes := 12 }

/-- A memory that starts with these bytes. -/
def memOf (bs : List Byte) : Mem := Mem.writeAll [] 0 bs

/-- `n` pixels with the word `w`. -/
def pixels (ws : List Word) : Mem := memOf (ws.flatMap wordBytes)

/-- The start of V-EM1: "Hi" and 16 all-black pixels. -/
def hi : State :=
  { State.resetWith smallBuild with
    pixcnt := 16#32, blen := 2#32, bytes := memOf [0x48#8, 0x69#8],
    pix := pixels (List.replicate 16 0xFF000000#32) }

/-- The six pixels of V-EM5 before and V-EX9. -/
def six (ws : List Word) : State := { State.resetWith smallBuild with pixcnt := 6#32, pix := pixels ws }

/-- A machine with text to decode. -/
def withText (bs : List Byte) : State :=
  { State.resetWith smallBuild with text := memOf bs, tlen := BitVec.ofNat 32 bs.length, blen := 9#32 }

/-- The end of an EMBED, as a state; `hi` itself where there is none. -/
def after (r : Result) : State :=
  match r with
  | .next t => t
  | .fault _ => hi
  | .refused _ => hi

/-- The end state of V-EM1. -/
def embedded : State := after (exec .embed hi)

/-- `hi` with the command word `w` accepted. -/
def busyWith (w : Word) : State := issue hi w

/-- `s` with one thing for the HOST to do and its turn next. -/
def hostNext (s : State) (op : HostOp) : State := { s with host := [op], turns := [.host] }

/-! ### Decoding: words written out from 30_encoding.md R70 and R71, as RSV (28 bits) and OP (4 bits) -/

theorem test_decode_nop : decode 0b0000_0000_0000_0000_0000_0000_0000_0000#32 = .ok .nop := by decide
theorem test_decode_embed : decode 0b0000_0000_0000_0000_0000_0000_0000_0001#32 = .ok .embed := by decide
theorem test_decode_extract : decode 0b0000_0000_0000_0000_0000_0000_0000_0010#32 = .ok .extract := by decide
theorem test_decode_tenc : decode 0b0000_0000_0000_0000_0000_0000_0000_0011#32 = .ok .tenc := by decide
theorem test_decode_tdec : decode 0b0000_0000_0000_0000_0000_0000_0000_0100#32 = .ok .tdec := by decide

/-- OP = 5 and OP = 15 are reserved (R72). -/
theorem test_decode_reserved_op :
    decode 0b0101#32 = .error (.reservedOpcode 0b0101#4) ∧ decode 0b1111#32 = .error (.reservedOpcode 0b1111#4) := by
  decide

/-- V-B13 and V-B14: a legal OP does not save a word whose RSV is not 0. -/
theorem test_decode_reserved_rsv :
    decode 0x00000011#32 = .error (.reservedBits 1#28) ∧
    decode 0xFFFFFFFF#32 = .error (.reservedBits 0xFFFFFFF#28) := by decide

theorem test_encode_words :
    [encode .nop, encode .embed, encode .extract, encode .tenc, encode .tdec] =
      [0x00000000#32, 0x00000001#32, 0x00000002#32, 0x00000003#32, 0x00000004#32] := by decide

/-- A row of the opcode table as the host numbers it, and a word of no row. -/
theorem test_table_words :
    decodeTableWord 32 2 = some .extract ∧ decodeTableWord 8 4 = some .tdec ∧ decodeTableWord 32 5 = none := by decide

/-! ### WellFormed: each check of 00_scope.md R6 and R7 refuses a build that fails it alone -/

theorem smoke_default_legal : Params.default.Legal := by decide
theorem smoke_smallest_legal : ({ maxPixels := 6, maxBytes := 12 } : Params).Legal := by decide
theorem smoke_too_few_pixels : ¬ ({ maxPixels := 5, maxBytes := 12 } : Params).Legal := by decide
theorem smoke_too_many_pixels :
    ¬ ({ maxPixels := 4194305, maxBytes := 786432 } : Params).Legal ∧ 6 ≤ 4194305 ∧ 786432 % 12 = 0 := by decide
theorem smoke_bytes_not_multiple : ¬ ({ maxPixels := 6, maxBytes := 14 } : Params).Legal := by decide
theorem smoke_no_bytes : ¬ ({ maxPixels := 6, maxBytes := 0 } : Params).Legal ∧ Config.maxDec 6 = 0 := by decide
theorem smoke_too_many_bytes : ¬ ({ maxPixels := 6, maxBytes := 786444 } : Params).Legal := by decide

/-- R7: 65536 pixels can decode to 18429 bytes, so 18420 are too few. -/
theorem smoke_bytes_too_few :
    ¬ ({ maxPixels := 65536, maxBytes := 18420 } : Params).Legal ∧ Config.maxDec 65536 = 18429 := by decide

/-- No command is ill-formed (R74): the check refuses no constructor, and there is no ill-formed term of `Instr`. -/
theorem smoke_commands_wellFormed :
    [Instr.nop, .embed, .extract, .tenc, .tdec].all Instr.wellFormed = true := by decide

/-! ### One command each -/

/-- V-B11: NOP clears ERRCODE; XSTATE stays (R161), which an issue had cleared before. -/
theorem test_nop :
    got (exec .nop { hi with errcode := .sentinelNotFound, status := { Status.reset with xstate := .exhausted } })
      (fun t => (t.errcode, t.status.word, t.bits)) = some (.none, 0x00000052#32, 0#24) := by decide

theorem test_nop_through_step :
    got (step (({ hi with errcode := .sentinelNotFound } : State).withFetchWord 32 0))
      (fun t => (t.errcode, t.status.word, t.pending)) = some (.none, 0x00000002#32, none) := by decide

/-- V-EM1: the 16 pixels, BITS and STATUS. -/
theorem test_embed_hi :
    got (exec .embed hi) (fun t => ((List.range 16).map (t.readWord .pix), t.bits, t.status.word)) =
      some ([0xFF000100#32, 0xFF000001#32, 0xFF000101#32, 0xFF000001#32, 0xFF010100#32, 0xFF010001#32,
        0xFF010001#32, 0xFF010100#32, 0xFF010000#32, 0xFF010101#32, 0xFF010100#32, 0xFF010101#32, 0xFF010101#32,
        0xFF010101#32, 0xFF010101#32, 0xFF000101#32], 48#24, 0x00000002#32) := by decide +kernel

/-- V-EM2: one pixel fewer. -/
theorem test_embed_capacity :
    got (exec .embed { hi with pixcnt := 15#32 }) (fun t => (t.errcode, t.status.word, t.bits, t.pix == hi.pix)) =
      some (.capacityExceeded, 0x00000006#32, 48#24, true) := by decide +kernel

/-- V-EX1: the round trip on the end state of V-EM1. -/
theorem test_extract_hi :
    got (exec .extract { embedded with blen := 0#32 })
      (fun t => (t.status.word, t.blen, t.bits, t.prefixOf .bytes 2)) =
      some (0x00000042#32, 2#32, 48#24, [0x48#8, 0x69#8]) := by decide +kernel

/-- V-EX9: a match that leaves one payload bit. -/
theorem test_extract_misaligned :
    got (exec .extract (six [0xFF010100#32, 0xFF010101#32, 0xFF010101#32, 0xFF010101#32, 0xFF010101#32, 0xFF000001#32]))
      (fun t => (t.errcode, t.status.word, t.bits)) =
      some (.malformedPayload, 0x00000066#32, 17#24) := by decide +kernel

/-- V-T1. -/
theorem test_tenc_hi :
    got (exec .tenc hi) (fun t => (t.prefixOf .text 4, t.tlen, t.status.word, t.errcode)) =
      some ([0x53#8, 0x47#8, 0x6B#8, 0x3D#8], 4#32, 0x00000002#32, .none) := by decide +kernel

/-- V-T4, in the small build. -/
theorem test_tenc_length :
    got (exec .tenc { hi with blen := 13#32 }) (fun t => (t.errcode, t.status.word, t.tlen, t.text)) =
      some (.lengthInvalid, 0x00000006#32, 0#32, []) := by decide +kernel

/-- V-T6. -/
theorem test_tdec_hi :
    got (exec .tdec (withText [0x53#8, 0x47#8, 0x6B#8, 0x3D#8])) (fun t => (t.prefixOf .bytes 2, t.blen, t.errcode)) =
      some ([0x48#8, 0x69#8], 2#32, .none) := by decide +kernel

/-- V-T7: "SGl=" is not canonical. -/
theorem test_tdec_noncanonical :
    got (exec .tdec (withText [0x53#8, 0x47#8, 0x6C#8, 0x3D#8])) (fun t => (t.errcode, t.status.word, t.blen, t.bytes)) =
      some (.malformedPayload, 0x00000006#32, 9#32, []) := by decide +kernel

/-- V-B12 and V-B14: words that are no command. -/
theorem test_illegal_words :
    got (step (hi.withCommand 0x00000005#32)) (fun t => (t.status.word, t.errcode)) =
      some (0x00000006#32, .illegalCommand) ∧
    got (step (hi.withCommand 0xFFFFFFFF#32)) (fun t => (t.status.word, t.errcode)) =
      some (0x00000006#32, .illegalCommand) := by decide

/-! ### The bus -/

/-- V-B3 to V-B7: misaligned and unmapped offsets, in the default build. -/
theorem test_bad_offsets :
    [0x0000002#25, 0x000001C#25, 0x0300000#25, 0x0104800#25, 0x1040000#25].map (decodeOffset Params.default) =
      [none, none, none, none, none] := by decide +kernel

/-- V-H1: a write while busy is answered OK and sets BUSYWR; STATUS then reads 0x00000009. -/
theorem test_write_while_busy :
    (transact (hostWrite (busyWith 1#32) 0x000000C#25 5#32).2 { kind := .rd, offset := 0x0000004#25, wdata := 0#32 }).1 =
      { resp := .ok, rdata := 0x00000009#32 } ∧
    (hostWrite (busyWith 1#32) 0x000000C#25 5#32).2.pixcnt = 16#32 := by decide

/-- V-B15 and V-B16: a word written and read back, and its bytes. -/
theorem test_word_little_endian :
    ((hostWrite hi 0x0100000#25 0x04030201#32).2.prefixOf .bytes 4) = [1#8, 2#8, 3#8, 4#8] ∧
    (hostRead (hostWrite hi 0x1000000#25 0x11223344#32).2 0x1000000#25).1.rdata = 0x11223344#32 := by decide +kernel

/-- The third and fourth lines of the spec's program P1, encoded. -/
theorem test_program_encoding :
    encodeProgram [.wb 0 [0x48#8, 0x69#8], .wpn 0 2 0xFF000000#32, .wait] =
      [⟨.wr, 0x0100000#25, 0x00006948#32⟩, ⟨.wr, 0x1000000#25, 0xFF000000#32⟩, ⟨.wr, 0x1000004#25, 0xFF000000#32⟩,
       ⟨.rd, 0x0000004#25, 0#32⟩] := by decide

/-! ### Witnesses: something meets the hypotheses of every statement that has some -/

theorem witness_IllegalWordCompletes : 4 < (5#32).toNat ∧ 4 < (0xFFFFFFFF#32).toNat := by decide

theorem witness_CommandIssue : State.reset.status.busy = false ∧ (busyWith 1#32).status.busy = true := ⟨rfl, rfl⟩

/-- A busy machine whose ENGINE moves: a legal word with the turn laid down, an illegal word with none laid down. -/
theorem witness_StepRunsDecodedCommand :
    (hi.withCommand 1#32).turns = .engine :: [] ∧ (hi.withCommand 1#32).status.busy = true ∧
    (hi.withCommand 1#32).pending = some 1#32 ∧ decode 1#32 = .ok .embed ∧
    (busyWith 5#32).turns = [] ∧ (busyWith 5#32).status.busy = true ∧ (busyWith 5#32).pending = some 5#32 ∧
    ∀ i, decode 5#32 ≠ .ok i :=
  ⟨rfl, rfl, rfl, by decide, rfl, rfl, rfl, fun i => by cases i <;> decide⟩

/-- An idle machine with the ENGINE's turn. -/
theorem witness_StepRunsDecodedCommand_idle :
    ({ hi with turns := [.engine] } : State).turns = .engine :: [] ∧ hi.status.busy = false := ⟨rfl, rfl⟩

theorem witness_CompletionCodes : ∃ t, exec .extract hi = .next t ∧ t.errcode = .sentinelNotFound :=
  ⟨_, rfl, by decide +kernel⟩

theorem witness_ErrorsLeaveOutputsUnchanged :
    ∃ t, exec .embed { hi with pixcnt := 15#32 } = .next t ∧ t.errcode ≠ .none := ⟨_, rfl, by decide +kernel⟩

theorem witness_CommandsWriteOnlyTheirOutputs :
    ∃ t, exec .tdec hi = .next t ∧ Instr.tdec ≠ .embed ∧ Instr.tdec ≠ .extract ∧ Instr.tdec ≠ .tenc :=
  ⟨_, rfl, by decide⟩

theorem witness_CommandsWriteOnlyTheirOutputs_embed :
    ∃ t, exec .embed hi = .next t ∧ Instr.embed ≠ .extract ∧ Instr.embed ≠ .tdec ∧ Instr.embed ≠ .tenc :=
  ⟨_, rfl, by decide⟩

/-- Pixel 16 is the first one past the buffer of `hi`. -/
theorem witness_AlphaAndOutsidePixelsUntouched : ∃ t, exec .embed hi = .next t ∧ hi.pixcnt.toNat ≤ 16 :=
  ⟨_, rfl, by decide⟩

theorem witness_IllegalWordsRejectedByName :
    16 ≤ (16#32).toNat ∧ 16 ≤ (0xFFFFFFFF#32).toNat ∧ (5 ≤ (5#32).toNat ∧ (5#32).toNat < 16) ∧
    5 ≤ (15#32).toNat ∧ (15#32).toNat < 16 := by decide

/-- The first and last pixel, and byte indexes at the ends of a window. -/
theorem witness_PseudoInstructionExpansion :
    0 < 4194304 ∧ 4194303 < 4194304 ∧ 4194302 + 2 ≤ 4194304 ∧
    0x00FFFF8 % 4 = 0 ∧ 0x00FFFF8 + [1#8, 2#8, 3#8, 4#8, 5#8].length ≤ 0x0100000 ∧
    4 * 1 < [1#8, 2#8, 3#8, 4#8, 5#8].length ∧ 0x00FFFFC % 4 = 0 ∧ 0x00FFFFC < 0x0100000 := by decide

/-- The default build; the last word of each of its windows, and the first offsets past them. -/
theorem witness_AddressMap :
    Params.default.Legal ∧ 4 * 4607 < Params.default.maxBytes ∧ 4 * 6143 < Params.default.maxText ∧
    65535 < Params.default.maxPixels := by decide

theorem witness_AddressMap_boundaries :
    ([0x18, 0x01047FC, 0x0205FFC, 0x103FFFC].all fun o => decide (Mapped Params.default o)) = true ∧
    ([0x1C, 0x0104800, 0x0206000, 0x1040000].all fun o => decide (¬ Mapped Params.default o)) = true := by decide

theorem witness_BadAccessAnswersErr :
    (0x0000002#25).toNat % 4 ≠ 0 ∧ ¬ Mapped hi.params (0x000001C#25).toNat ∧
    (0x0000018#25).toNat % 4 = 0 ∧ Mapped hi.params (0x0000018#25).toNat := by decide

theorem witness_HostReadIdle :
    hi.status.busy = false ∧ hi.params.Legal ∧ 4 * 15 < Params.bankSize hi.params .pix ∧
    4 * 2 < Params.bankSize hi.params .bytes ∧ 4 * 3 < Params.bankSize hi.params .text := by decide

theorem witness_HostWriteIdle :
    hi.status.busy = false ∧ hi.params.Legal ∧ 4 * 15 < Params.bankSize hi.params .pix := by decide

/-- A busy machine and a target for each of the four items of R165: PIX under EMBED, STATUS under EMBED and under
EXTRACT, PIXCNT under EMBED; and the clauses do not meet (STATUS is in no WSET). -/
theorem witness_AccessWhileBusy :
    (busyWith 1#32).status.busy = true ∧ (busyWith 1#32).pending = some 1#32 ∧ (busyWith 2#32).pending = some 2#32 ∧
    decodeOffset smallBuild 0x1000000#25 = some (.word .pix 0) ∧ InWset 1#32 (.word .pix 0) ∧
    decodeOffset smallBuild 0x0000004#25 = some (.reg .status) ∧ ¬ InWset 1#32 (.reg .status) ∧
    ¬ InWset 2#32 (.reg .status) ∧
    decodeOffset smallBuild 0x000000C#25 = some (.reg .pixcnt) ∧ ¬ InWset 1#32 (.reg .pixcnt) :=
  ⟨rfl, rfl, rfl, by decide, rfl, by decide, id, id, by decide, id⟩

/-- The turn laid down, and none laid down while idle. -/
theorem witness_HostTurnPerformsOneTransaction :
    (hostNext hi (.request ⟨.wr, 0x000000C#25, 5#32⟩)).turns = .host :: [] ∧
    (hostNext hi (.request ⟨.wr, 0x000000C#25, 5#32⟩)).host = .request ⟨.wr, 0x000000C#25, 5#32⟩ :: [] ∧
    hi.turns = [] ∧ hi.status.busy = false ∧
    ({ hi with host := [.request ⟨.wr, 0x000000C#25, 5#32⟩] } : State).host =
      .request ⟨.wr, 0x000000C#25, 5#32⟩ :: [] := ⟨rfl, rfl, rfl, rfl, rfl⟩

/-- WAIT, at an idle and at a busy machine, and with no turn laid down. -/
theorem witness_WaitRepeatsWhileBusy :
    (hostNext hi .wait).turns = .host :: [] ∧ (hostNext hi .wait).host = .wait :: [] ∧
    (hostNext (busyWith 1#32) .wait).turns = .host :: [] ∧ (hostNext (busyWith 1#32) .wait).host = .wait :: [] ∧
    (hostNext (busyWith 1#32) .wait).status.busy = true ∧
    hi.turns = [] ∧ hi.status.busy = false ∧ ({ hi with host := [.wait] } : State).host = .wait :: [] :=
  ⟨rfl, rfl, rfl, rfl, rfl, rfl, rfl, rfl⟩

/-- Both ends of TENC, at the boundary. -/
theorem witness_TencResult :
    hi.params.maxBytes < ({ hi with blen := 13#32 } : State).blen.toNat ∧
    ({ hi with blen := 12#32 } : State).blen.toNat ≤ hi.params.maxBytes := by decide

/-- The three ends of TDEC. -/
theorem witness_TdecResult :
    hi.params.maxText < ({ hi with tlen := 17#32 } : State).tlen.toNat ∧
    (withText [0x53#8, 0x47#8, 0x6B#8]).tlen.toNat ≤ (withText []).params.maxText ∧
    b64Valid ((List.range 3).map ((withText [0x53#8, 0x47#8, 0x6B#8]).byteAt .text)) = false ∧
    b64Valid ((List.range 4).map ((withText [0x53#8, 0x47#8, 0x6B#8, 0x3D#8]).byteAt .text)) = true := by
  decide +kernel

/-- "Hi": its one group has two bytes; the group of "H" has one, the first group of "Hiya" has three. -/
theorem witness_B64EncGroups :
    3 * 0 < [0x48#8, 0x69#8].length ∧ 3 * 0 < [0x48#8].length ∧ 3 * 0 < [0x48#8, 0x69#8, 0x79#8, 0x61#8].length := by
  decide

/-- "SGk=" has the values 18, 6, 36 and a pad, "Zg==" 25, 32 and two pads, "Zm9v" 25, 38, 61, 47 (V-C2, V-C4, V-C8). -/
theorem witness_B64DecGroups :
    b64Valid [0x53#8, 0x47#8, 0x6B#8, 0x3D#8] = true ∧ b64Valid [0x5A#8, 0x67#8, 0x3D#8, 0x3D#8] = true ∧
    b64Valid [0x5A#8, 0x6D#8, 0x39#8, 0x76#8] = true ∧ 4 * 0 < 4 ∧
    [18, 6, 36].map symbolOf = [0x53, 0x47, 0x6B] ∧ [25, 32].map symbolOf = [0x5A, 0x67] ∧
    [25, 38, 61, 47].map symbolOf = [0x5A, 0x6D, 0x39, 0x76] := by decide +kernel

theorem witness_B64EncShape : 0 < (b64Enc [0x48#8]).length ∧ 3 < (b64Enc [0x48#8]).length := by decide

theorem witness_B64ValidIsEncoderImage : b64Valid [0x53#8, 0x47#8, 0x6B#8, 0x3D#8] = true := by decide +kernel

theorem witness_B64DecLength : b64Valid [0x41#8, 0x41#8, 0x3D#8, 0x3D#8] = true := by decide +kernel

theorem witness_NoFiveOnesInTransportBits :
    ∀ c, c ∈ [0x2F#8, 0x3D#8] → isSym c = true ∨ c = padByte := by decide +kernel

/-- The three ends of EMBED, each way of failing the length check alone; the last two at the boundary. -/
theorem witness_EmbedResult :
    hi.params.maxPixels < (17#32).toNat ∧ hi.params.maxBytes < (13#32).toNat ∧
    hi.pixcnt.toNat ≤ hi.params.maxPixels ∧ hi.blen.toNat ≤ hi.params.maxBytes ∧
    3 * (15#32).toNat < (ser (b64Enc ((List.range hi.blen.toNat).map (hi.byteAt .bytes)))).length ∧
    (ser (b64Enc ((List.range hi.blen.toNat).map (hi.byteAt .bytes)))).length ≤ 3 * hi.pixcnt.toNat := by
  decide +kernel

theorem witness_CapacityBoundary :
    hi.params.Legal ∧ hi.blen.toNat ≤ hi.params.maxBytes ∧ (reqBits hi.blen.toNat + 2) / 3 = 16 ∧
    16 ≤ hi.params.maxPixels := by decide

theorem witness_EmbeddedPixelWord : ∃ t, exec .embed hi = .next t ∧ t.errcode = .none := ⟨_, rfl, by decide +kernel⟩

theorem witness_ReembedSameMessage : ∃ t, exec .embed hi = .next t ∧ t.errcode = .none := witness_EmbeddedPixelWord

/-- Too many pixels (V-EX16), exhaustion (V-EX4). -/
theorem witness_ExtractResult_length_and_exhausted :
    hi.params.maxPixels < (17#32).toNat ∧ hi.pixcnt.toNat ≤ hi.params.maxPixels ∧
    ∀ L, L < 3 * hi.pixcnt.toNat + 1 → ¬ SentinelAt hi.lsb L := by decide +kernel

/-- A match that is not byte-aligned (V-EX9). -/
theorem witness_ExtractResult_malformed :
    FirstMatch (six [0xFF010100#32, 0xFF010101#32, 0xFF010101#32, 0xFF010101#32, 0xFF010101#32, 0xFF000001#32]).lsb
      (3 * 6) 17 ∧ (17 - 16) % 8 ≠ 0 := by decide +kernel

/-- A payload the codec rejects (V-EX10: "A"). -/
theorem witness_ExtractResult_rejected :
    ∃ f : Nat → Bool, FirstMatch f 24 24 ∧ b64Valid (charsOf f (24 - 16)) = false :=
  ⟨fun k => decide (k = 1 ∨ k = 7 ∨ (8 ≤ k ∧ k < 23)), by decide +kernel⟩

/-- V-EX1; and in a build of one byte (no legal one) the output is too long. -/
theorem witness_ExtractResult_decoded :
    embedded.pixcnt.toNat ≤ embedded.params.maxPixels ∧ FirstMatch embedded.lsb (3 * embedded.pixcnt.toNat) 48 ∧
    (48 - 16) % 8 = 0 ∧ b64Valid (charsOf embedded.lsb (48 - 16)) = true ∧
    b64Dec (charsOf embedded.lsb (48 - 16)) = [0x48#8, 0x69#8] ∧ 2 ≤ embedded.params.maxBytes ∧
    ({ maxPixels := 16, maxBytes := 1 } : Params).maxBytes < 2 := by decide +kernel

/-- Two states with other alpha channels and other bits above the LSBs. -/
theorem witness_ExtractDependsOnlyOnLsbs :
    (six (List.replicate 6 0xFF010101#32)).params = (six (List.replicate 6 0x00234567#32)).params ∧
    ∀ k, k < 3 * 6 →
      (six (List.replicate 6 0xFF010101#32)).lsb k = (six (List.replicate 6 0x00234567#32)).lsb k := by decide +kernel

theorem witness_EmbedExtractRoundTrip :
    exec .embed hi = .next embedded ∧ embedded.errcode = .none ∧ embedded.params = hi.params ∧
    embedded.pixcnt.toNat ≤ embedded.params.maxPixels ∧ reqBits hi.blen.toNat ≤ 3 * embedded.pixcnt.toNat :=
  ⟨rfl, by decide +kernel⟩

/-- V-EX14: the same with PIXCNT = 15. -/
theorem witness_ShortBufferFindsNoSentinel :
    exec .embed hi = .next embedded ∧ embedded.errcode = .none ∧
    3 * ({ embedded with pixcnt := 15#32 } : State).pixcnt.toNat < reqBits hi.blen.toNat ∧
    ∀ k, ({ embedded with pixcnt := 15#32 } : State).lsb k = embedded.lsb k :=
  ⟨rfl, by decide +kernel, by decide +kernel, fun _ => rfl⟩

theorem witness_OutputsFitLegalBuild :
    hi.params.Legal ∧ hi.pixcnt.toNat ≤ hi.params.maxPixels ∧ hi.blen.toNat ≤ hi.params.maxBytes ∧
    (16#32).toNat ≤ hi.params.maxText := by decide

theorem witness_ResetTurn : ({ busyWith 1#32 with turns := [.reset] } : State).turns = .reset :: [] := rfl

/-- The invariant holds of states a run reaches, idle and busy. -/
theorem witness_StepKeepsInv : State.Inv (hi.withCommand 1#32) ∧ ∃ t, step (hi.withCommand 1#32) = .next t :=
  ⟨⟨by decide, by decide, by decide, by decide, by decide, by decide, by decide, by decide, by decide, by decide,
    fun b => by cases b <;> decide +kernel, fun b => by cases b <;> decide +kernel⟩, _, rfl⟩

theorem witness_PendingCommandCompletes :
    State.Inv (hi.withCommand 1#32) ∧ (hi.withCommand 1#32).status.busy = true ∧
    .reset ∉ (hi.withCommand 1#32).turns := ⟨witness_StepKeepsInv.1, rfl, by decide⟩

theorem witness_WaitLoopEnds :
    State.Inv { hi.withCommand 1#32 with host := [.wait] } ∧
    ({ hi.withCommand 1#32 with host := [.wait] } : State).host = .wait :: [] :=
  ⟨⟨by decide, by decide, by decide, by decide, by decide, by decide, by decide, by decide, by decide, by decide,
    fun b => by cases b <;> decide +kernel, fun b => by cases b <;> decide +kernel⟩, rfl⟩

theorem witness_HostTurnWhileBusyKeepsState :
    (busyWith 1#32).status.busy = true ∧
    ∃ t, step (hostNext (busyWith 1#32) (.request ⟨.wr, 0x000000C#25, 5#32⟩)) = .next t ∧ t.status.busywr = true :=
  ⟨rfl, _, rfl, by decide⟩

/-- Both alternatives: a read, and a command word. -/
theorem witness_IdleStepIssuesOrKeepsStatus :
    (∃ t, step (hostNext hi .wait) = .next t ∧ t.resets = hi.resets) ∧
    ∃ t, step (hostNext hi (.request ⟨.wr, 0x0000000#25, 3#32⟩)) = .next t ∧ t.resets = hi.resets ∧
      t.status.busy = true := ⟨⟨_, rfl, by decide⟩, _, rfl, by decide⟩

/-- BUSYWR set by a write while busy, and cleared by an issue. -/
theorem witness_BusywrSticky :
    (∃ t, step (hostNext (busyWith 1#32) (.request ⟨.wr, 0x000000C#25, 5#32⟩)) = .next t ∧ t.status.busywr = true) ∧
    ∃ t, step (hostNext { hi with status := { Status.reset with busywr := true } }
      (.request ⟨.wr, 0x0000000#25, 0#32⟩)) = .next t ∧ t.status.busywr = false :=
  ⟨⟨_, rfl, by decide⟩, _, rfl, by decide⟩

/-- A pixel channel changed by a command, and a byte changed by an idle write. -/
theorem witness_MemoryChangesOnlyBy :
    (∃ t, step (hi.withCommand 1#32) = .next t ∧ t.byteAt .pix 1 ≠ (hi.withCommand 1#32).byteAt .pix 1) ∧
    ∃ t, step (hostNext hi (.request ⟨.wr, 0x0100000#25, 7#32⟩)) = .next t ∧ t.byteAt .bytes 0 ≠ hi.byteAt .bytes 0 :=
  ⟨⟨_, rfl, by decide +kernel⟩, _, rfl, by decide +kernel⟩

end Sys2Proof.Tests
end

section
/-! The HOST's transactions (20_memory.md): the address map (R51), and the answer to a transaction whose offset is
misaligned or unmapped (R52, R201). -/

namespace Sys2Proof.Proofs

open Sys2Proof Sys2Proof.Machine Sys2Proof.Laws

/-! ### The address map -/

/-- In a legal build every memory fits its window and is a whole number of words (R6, R51). -/
theorem windows_fit_of_legal {p : Params} (hp : p.Legal) :
    p.maxBytes ≤ 0x0C0000 ∧ p.maxText ≤ 0x100000 ∧ 4 * p.maxPixels ≤ 0x1000000 ∧
    p.maxBytes % 4 = 0 ∧ p.maxText % 4 = 0 := by
  obtain ⟨_, hpix, hmult, _, hbytes, _⟩ := hp
  simp only [Params.maxText]
  omega

/-- Settles O17: the offsets of registers and of window words by the laws of `decodeOffset`, the fit of the windows by
arithmetic on the ranges of R6. -/
theorem addressMap : Obligations.AddressMap := by
  intro p hp
  have reg := decodeOffset_regOffset p
  have word := fun b w => decodeOffset_windowOffset p b w hp
  exact ⟨reg .cmd, reg .status, reg .errcode, reg .pixcnt, reg .blen, reg .tlen, reg .bits,
    word .bytes, word .text, fun w hw => word .pix w (Nat.mul_lt_mul_of_pos_left hw (by decide)),
    fun o => (decodeOffset_eq_none_iff p o).symm, windows_fit_of_legal hp⟩

/-! ### Answers -/

/-- A read of an offset that names nothing is answered ERR and changes nothing. -/
theorem hostRead_of_none {s : State} {o : Offset} (h : decodeOffset s.params o = none) :
    hostRead s o = (errResponse, s) := by
  simp only [hostRead, h]

/-- A write to an offset that names nothing is answered ERR and changes nothing. -/
theorem hostWrite_of_none {s : State} {o : Offset} (v : Word) (h : decodeOffset s.params o = none) :
    hostWrite s o v = (errResponse, s) := by
  simp only [hostWrite, h]

/-- A read of a mapped target while busy is answered OK, whichever item of R165 applies. -/
@[simp] theorem busyRead_resp (s : State) (t : Target) : (busyRead s t).1.resp = .ok := by
  simp only [busyRead, busyStatusRead]
  split_ifs <;> rfl

/-- A read of an offset that names a target is answered OK, busy or idle. -/
theorem hostRead_resp_of_some {s : State} {o : Offset} {t : Target} (h : decodeOffset s.params o = some t) :
    (hostRead s o).1.resp = .ok := by
  simp only [hostRead, h]
  split
  · exact busyRead_resp s t
  · rfl

/-- A write to an offset that names a target is answered OK, busy or idle. -/
theorem hostWrite_resp_of_some {s : State} {o : Offset} {t : Target} (v : Word)
    (h : decodeOffset s.params o = some t) : (hostWrite s o v).1.resp = .ok := by
  rcases hostWrite_cases s o v with ⟨hnone, _⟩ | ⟨_, _, _, hw⟩ | ⟨_, _, _, hw⟩
  · cases h.symm.trans hnone
  · rw [hw]; rfl
  · rw [hw]; rfl

/-- A transaction on an offset that names nothing is answered ERR and changes nothing (R52). -/
theorem transact_of_none {s : State} {r : Request} (h : decodeOffset s.params r.offset = none) :
    transact s r = (errResponse, s) := by
  obtain ⟨kind, o, v⟩ := r
  cases kind with
  | rd => exact hostRead_of_none h
  | wr => exact hostWrite_of_none v h

/-- A transaction on an offset that names a target is answered OK (R201). -/
theorem transact_resp_of_some {s : State} {r : Request} {t : Target}
    (h : decodeOffset s.params r.offset = some t) : (transact s r).1.resp = .ok := by
  obtain ⟨kind, o, v⟩ := r
  cases kind with
  | rd => exact hostRead_resp_of_some h
  | wr => exact hostWrite_resp_of_some v h

/-- Settles O18: the offset names nothing exactly when it is misaligned or unmapped, and that alone decides the
answer. -/
theorem badAccessAnswersErr : Obligations.BadAccessAnswersErr := by
  intro s r
  have hnone := decodeOffset_eq_none_iff s.params r.offset
  constructor
  · intro hbad
    exact transact_of_none (hnone.mpr hbad)
  · intro haligned hmapped
    have hnamed : decodeOffset s.params r.offset ≠ none := fun h =>
      (hnone.mp h).elim (· haligned) (· hmapped)
    obtain ⟨t, ht⟩ := Option.ne_none_iff_exists'.mp hnamed
    exact transact_resp_of_some ht

end Sys2Proof.Proofs
end

section
/-! Encodings (30_encoding.md): the command word and its two fields (R70, R71), the sentinel (R77) and the serialized
stream (R76). -/

namespace Sys2Proof.Proofs

open Sys2Proof Sys2Proof.Machine

/-! ### The command word -/

@[simp] theorem rsvField_append (rsv : BitVec 28) (op : BitVec 4) : rsvField (rsv ++ op) = rsv :=
  BitVec.extractLsb'_append_eq_left

@[simp] theorem opField_append (rsv : BitVec 28) (op : BitVec 4) : opField (rsv ++ op) = op :=
  BitVec.extractLsb'_append_eq_right

/-- RSV above OP is the whole word: no bit stands outside the two fields (R70). -/
theorem rsvField_append_opField (w : Word) : rsvField w ++ opField w = w :=
  BitVec.extractLsb'_append_extractLsb' (w := 28) (len := 4)

/-- A word is an OP under RSV = 0 exactly when its two fields are these. -/
theorem eq_zero_append_iff (w : Word) (op : BitVec 4) : w = 0#28 ++ op ↔ rsvField w = 0#28 ∧ opField w = op := by
  constructor
  · rintro rfl
    exact ⟨rsvField_append _ _, opField_append _ _⟩
  · rintro ⟨hrsv, hop⟩
    rw [← hrsv, ← hop, rsvField_append_opField]

/-- The opcode map sends exactly a command's own OP to the command (R71). -/
theorem decodeOp_eq_ok_iff (op : BitVec 4) (i : Instr) : decodeOp op = .ok i ↔ op = encodeOp i := by
  revert op
  cases i <;> decide

/-- A word decodes to a command exactly when its RSV is 0 and its OP maps to the command (R70, R72). -/
theorem decode_eq_ok_iff_fields (w : Word) (i : Instr) :
    decode w = .ok i ↔ rsvField w = 0#28 ∧ decodeOp (opField w) = .ok i := by
  rw [decode]
  split
  · next h => simp [h]
  · next h => simp [h]

/-- R71: a word decodes to a command exactly when it is the command's word. -/
theorem decode_eq_ok_iff (w : Word) (i : Instr) : decode w = .ok i ↔ w = encode i := by
  rw [decode_eq_ok_iff_fields, decodeOp_eq_ok_iff, encode, eq_zero_append_iff]

/-- Settles O12: the word is its two fields, RSV must be 0 and the opcode map is inverted OP by OP; the five words are
computed. -/
theorem decodeEncodeAgree : Obligations.DecodeEncodeAgree :=
  ⟨decode_eq_ok_iff, rfl, rfl, rfl, rfl, rfl⟩

/-! ### The sentinel and the serialized stream -/

@[simp] theorem sentinel_length : sentinel.length = 16 := rfl

/-- The sentinel element by element (R77). -/
theorem sentinel_getElem? : ∀ j, j < 16 → sentinel[j]? = some (decide (j < 15)) := by decide

/-- Settles O14, from the sentinel's elements; its value is computed. -/
theorem sentinelPattern : Obligations.SentinelPattern := by
  refine ⟨sentinel_length, fun i hi => ?_, sentinel_getElem? 15 (by decide), rfl⟩
  simpa [hi] using sentinel_getElem? i (by omega)

@[simp] theorem bits8_length (b : Byte) : (bits8 b).length = 8 := rfl

/-- Element `j` of a character's bits is its bit `7 - j` (R76). -/
theorem bits8_getElem? (b : Byte) (j : Nat) (hj : j < 8) : (bits8 b)[j]? = some (b.getLsbD (7 - j)) := by
  interval_cases j <;> rfl

@[simp] theorem flatMap_bits8_length (t : List Byte) : (t.flatMap bits8).length = 8 * t.length := by
  simp only [List.length_flatMap, bits8_length, List.map_const', List.sum_replicate_nat, Nat.mul_comm]

/-- Element `8 * i + j` of the characters' bits is element `j` of character `i`'s. -/
theorem flatMap_bits8_getElem? (t : List Byte) (i j : Nat) (hi : i < t.length) (hj : j < 8) :
    (t.flatMap bits8)[8 * i + j]? = (bits8 t[i])[j]? := by
  induction t generalizing i with
  | nil => cases hi
  | cons b t ih =>
    rw [List.flatMap_cons]
    cases i with
    | zero => rw [List.getElem?_append_left (by simp; omega)]; simp
    | succ i =>
      rw [List.getElem?_append_right (by simp; omega), bits8_length, show 8 * (i + 1) + j - 8 = 8 * i + j by omega,
        ih i (Nat.lt_of_succ_lt_succ hi), List.getElem_cons_succ]

/-- `len(SER(T)) = 8 * len(T) + 16` (R76). -/
theorem ser_length (t : List Byte) : (ser t).length = 8 * t.length + 16 := by
  rw [ser, List.length_append, flatMap_bits8_length, sentinel_length]

/-- The stream's front: the characters' bits, most significant first. -/
theorem ser_getElem?_char (t : List Byte) (i j : Nat) (hi : i < t.length) (hj : j < 8) :
    (ser t)[8 * i + j]? = some (t[i].getLsbD (7 - j)) := by
  rw [ser, List.getElem?_append_left (by rw [flatMap_bits8_length]; omega), flatMap_bits8_getElem? t i j hi hj,
    bits8_getElem? _ j hj]

/-- The stream's end: the sentinel. -/
theorem ser_getElem?_sentinel (t : List Byte) (j : Nat) (hj : j < 16) :
    (ser t)[8 * t.length + j]? = some (decide (j < 15)) := by
  rw [ser, List.getElem?_append_right (by rw [flatMap_bits8_length]; omega), flatMap_bits8_length, Nat.add_sub_cancel_left,
    sentinel_getElem? j hj]

/-- Settles O15: the characters' bits by induction on the string, the end by the sentinel's elements. -/
theorem serializedStream : Obligations.SerializedStream := fun t =>
  ⟨ser_length t, ser_getElem?_char t, ser_getElem?_sentinel t⟩

end Sys2Proof.Proofs
end

section
/-! The commands of the Transport Codec (40_transport_codec.md): TENC (R106) and TDEC (R107), every end with its
frame. -/

namespace Sys2Proof.Proofs

open Sys2Proof Sys2Proof.Machine Sys2Proof.Laws

/-- Bytes written at the start of a memory are read back there: `M[0..len(vs))` is `vs`. -/
theorem byteAt_writeBytes_start (s : State) (b : Bank) (vs : List Byte) (i : Nat) (hi : i < vs.length) :
    (s.writeBytes b 0 vs).byteAt b i = vs.getD i 0#8 := by
  have hread := byteAt_writeBytes_inside s b 0 vs i hi
  rwa [Nat.zero_add, List.getElem_eq_getD 0#8] at hread

/-- Bytes written at the start of a memory leave every byte past them, and every other memory, as it was. -/
theorem byteAt_writeBytes_start_frame (s : State) (b b' : Bank) (vs : List Byte) (a : Nat)
    (h : b' = b → vs.length ≤ a) : (s.writeBytes b 0 vs).byteAt b' a = s.byteAt b' a :=
  byteAt_writeBytes_outside s b b' 0 a vs fun hb => .inr (by simpa using h hb)

/-- Settles O26: each end of TENC is the one its length check selects; a completed TENC reads back what it wrote at the
start of TEXT, and nothing else. -/
theorem tencResult : Obligations.TencResult := by
  refine ⟨(decode_eq_ok_iff _ _).mpr rfl, ?_⟩
  rintro s _ rfl
  rcases execTenc_cases s with ⟨hlong, hexec⟩ | ⟨hfits, hexec⟩
  · exact ⟨fun _ => hexec, fun hfits => absurd hlong (by omega)⟩
  · refine ⟨fun hlong => absurd hlong (by omega), fun _ => ⟨_, hexec, rfl, fun i hi => ?_, fun b a ha => ?_⟩⟩
    · rw [byteAt_finish, byteAt_setTlen]
      exact byteAt_writeBytes_start s .text _ i hi
    · rw [byteAt_finish, byteAt_setTlen]
      exact byteAt_writeBytes_start_frame s .text b _ a ha

/-- Settles O27: each end of TDEC is the one its length check and the validity of the characters select; a completed
TDEC reads back what it wrote at the start of BYTES, and nothing else. -/
theorem tdecResult : Obligations.TdecResult := by
  refine ⟨(decode_eq_ok_iff _ _).mpr rfl, ?_⟩
  intro s x hx
  obtain rfl : x = s.textIn := hx
  rcases execTdec_cases s with ⟨hlong, hexec⟩ | ⟨hfits, hinvalid, hexec⟩ | ⟨hfits, hvalid, hexec⟩
  · exact ⟨fun _ => hexec, fun hfits => absurd hlong (by omega), fun hfits => absurd hlong (by omega)⟩
  · exact ⟨fun hlong => absurd hlong (by omega), fun _ _ => hexec, fun _ hvalid => by simp [hinvalid] at hvalid⟩
  · refine ⟨fun hlong => absurd hlong (by omega), fun _ hinvalid => by simp [hvalid] at hinvalid,
      fun _ _ => ⟨_, hexec, rfl, fun i hi => ?_, fun b a ha => ?_⟩⟩
    · rw [byteAt_finish, byteAt_setBlen]
      exact byteAt_writeBytes_start s .bytes _ i hi
    · rw [byteAt_finish, byteAt_setBlen]
      exact byteAt_writeBytes_start_frame s .bytes b _ a ha

end Sys2Proof.Proofs
end

section
/-! The command EMBED (41_embedder.md R122 to R124): its three ends, the mux position by position, and its frame. -/

namespace Sys2Proof.Proofs

open Sys2Proof Sys2Proof.Machine Sys2Proof.Laws

/-- R122 in the spec's form: the channel's bit 0 replaced by the stream bit. -/
theorem putLsb_eq_or_ite (ch : Byte) (bit : Bool) :
    putLsb ch bit = (ch &&& 0xFE#8) ||| (if bit then 1#8 else 0#8) := by
  cases bit <;> rfl

/-- The mux run from bit position 0 replaces bit 0 of the carrier of every position of the stream (R122):
channel `k % 3` of pixel `k / 3` is by definition the byte at `carrierIndex k`. -/
theorem ch_setBank_embedFrom (s : State) (bs : List Bool) (k : Nat) (hk : k < bs.length) :
    (s.setBank .pix (Mem.embedFrom s.resets s.pix 0 bs)).ch (k / 3) (k % 3) =
      (s.ch (k / 3) (k % 3) &&& 0xFE#8) ||| (if bs.getD k false then 1#8 else 0#8) := by
  have hwritten := byteAt_embedFrom_inside s.resets bs s.pix 0 k hk
  rwa [Nat.zero_add, putLsb_eq_or_ite, List.getElem_eq_getD false] at hwritten

/-- The mux leaves every byte that carries no position of the stream, and every other memory, as it was (R123). -/
theorem byteAt_setBank_embedFrom_frame (s : State) (bs : List Bool) (b : Bank) (a : Nat)
    (h : b = .pix → ∀ k, k < bs.length → a ≠ carrierIndex k) :
    (s.setBank .pix (Mem.embedFrom s.resets s.pix 0 bs)).byteAt b a = s.byteAt b a := by
  by_cases hb : b = .pix
  · subst hb
    exact byteAt_embedFrom_outside s.resets bs s.pix 0 a fun k _ hk => h rfl k (by omega)
  · exact byteAt_congr _ _ _ _ (setBank_resets ..) (bank_setBank_ne _ _ _ _ hb)

/-- Settles O34: each end of EMBED is the one its length and capacity checks select; a completed EMBED has run the mux
over the pixel memory and changed nothing else there. -/
theorem embedResult : Obligations.EmbedResult := by
  refine ⟨(decode_eq_ok_iff _ _).mpr rfl, ?_⟩
  intro s S hS
  obtain rfl : S = ser (b64Enc s.message) := hS
  rcases execEmbed_cases s with ⟨hlong, hexec⟩ | ⟨hpix, hbytes, hover, hexec⟩ | ⟨hpix, hbytes, hroom, hexec⟩
  · exact ⟨fun _ => hexec, fun hpix hbytes => absurd hlong (by omega), fun hpix hbytes => absurd hlong (by omega)⟩
  · exact ⟨fun hlong => absurd hlong (by omega), fun _ _ _ => hexec, fun _ _ hroom => absurd hover hroom.not_gt⟩
  · refine ⟨fun hlong => absurd hlong (by omega), fun _ _ hover => absurd hroom hover.not_ge,
      fun _ _ _ => ⟨_, hexec, rfl, fun k hk => ?_, fun b a ha => ?_⟩⟩
    · exact ch_setBank_embedFrom s _ k hk
    · rw [byteAt_finish]
      exact (byteAt_setBank_embedFrom_frame (s.setBits _) _ b a ha).trans (byteAt_setBits ..)

end Sys2Proof.Proofs
end

section
/-! The command EXTRACT (42_extractor.md R142, R147): its six ends, and the frame of each. -/

namespace Sys2Proof.Proofs

open Sys2Proof Sys2Proof.Machine Sys2Proof.Laws

/-- A buffer in which the sentinel ends nowhere has no first match. -/
theorem not_firstMatch_of_noMatch {f : Nat → Bool} {n L : Nat} (hnone : ∀ L, L ≤ n → ¬ SentinelAt f L) :
    ¬ FirstMatch f n L :=
  fun ⟨hL, hsentinel, _⟩ => hnone L hL hsentinel

/-- Settles O38: each end of EXTRACT is the one its checks select, in their order. The first match the statement
names is the one the scan stopped at, and a completed EXTRACT reads back what it wrote at the start of BYTES, and
nothing else. -/
theorem extractResult : Obligations.ExtractResult := by
  refine ⟨(decode_eq_ok_iff _ _).mpr rfl, fun s => ?_⟩
  rcases execExtract_cases s with ⟨hlong, hexec⟩ | ⟨hpix, hnone, hexec⟩ | ⟨L, hpix, hmatch, hend⟩
  · exact ⟨fun _ => hexec, fun hpix => absurd hlong hpix.not_gt⟩
  · exact ⟨fun hlong => absurd hpix hlong.not_ge, fun _ => ⟨fun _ => hexec, fun _ _ hmatch =>
      absurd hmatch (not_firstMatch_of_noMatch hnone)⟩⟩
  · refine ⟨fun hlong => absurd hpix hlong.not_ge, fun _ => ⟨fun hnone =>
      absurd hmatch (not_firstMatch_of_noMatch hnone), ?_⟩⟩
    rintro L' _ hmatch' rfl
    obtain rfl : L = L' := firstMatch_unique hmatch hmatch'
    rcases hend with ⟨hunaligned, hexec⟩ | ⟨_, hinvalid, hexec⟩ | ⟨haligned, hvalid, hover, hexec⟩ |
      ⟨haligned, hvalid, hfits, hexec⟩
    · exact ⟨fun _ => hexec, fun haligned => absurd haligned hunaligned,
        fun haligned => absurd haligned hunaligned⟩
    · exact ⟨fun _ => hexec, fun _ hvalid => by simp [hinvalid] at hvalid,
        fun _ hvalid => by simp [hinvalid] at hvalid⟩
    · exact ⟨fun hmalformed => by simp [haligned, hvalid] at hmalformed, fun _ _ _ => hexec,
        fun _ _ hfits => absurd hover hfits.not_gt⟩
    · refine ⟨fun hmalformed => by simp [haligned, hvalid] at hmalformed, fun _ _ hover => absurd hfits hover.not_ge,
        fun _ _ _ => ⟨_, hexec, rfl, fun i hi => ?_, fun b a ha => ?_⟩⟩
      · rw [byteAt_finish, byteAt_setXState, byteAt_setBlen]
        exact byteAt_writeBytes_start (s.setBits L) .bytes _ i hi
      · rw [byteAt_finish, byteAt_setXState, byteAt_setBlen]
        exact (byteAt_writeBytes_start_frame (s.setBits L) .bytes b _ a ha).trans (byteAt_setBits ..)

end Sys2Proof.Proofs
end

section
/-! Control (43_control.md): the issue of a command (R160), and the ends of NOP (R161) and of an illegal word (R162). -/

namespace Sys2Proof.Proofs

open Sys2Proof Sys2Proof.Machine Sys2Proof.Laws

/-! ### The issue -/

/-- A write to an offset that names a target is lost while busy, and only sets BUSYWR (R165). -/
theorem hostWrite_busy {s : State} {o : Offset} {t : Target} (v : Word) (ht : decodeOffset s.params o = some t)
    (hb : s.status.busy = true) : hostWrite s o v = (okData 0#32, lostWrite s) := by
  simp [hostWrite, ht, hb]

/-- A write to an offset that names a target reaches the target while idle (R164). -/
theorem hostWrite_idle {s : State} {o : Offset} {t : Target} (v : Word) (ht : decodeOffset s.params o = some t)
    (hb : s.status.busy = false) : hostWrite s o v = (okData 0#32, idleWrite s t v) := by
  simp [hostWrite, ht, hb]

/-- Settles O3: offset 0 names CMD in every build, so an idle write there is the issue of its word, which nothing
decodes, and a busy one is lost. -/
theorem commandIssue : Obligations.CommandIssue := by
  intro s w
  have hcmd := decodeOffset_regOffset s.params .cmd
  exact ⟨hostWrite_idle w hcmd, hostWrite_busy w hcmd⟩

/-! ### The step after an issue -/

/-- A legal word, accepted and stepped, is its command run on the issued state and then retired (R166). -/
theorem step_withCommand_of_decode_ok {w : Word} {i : Instr} (s : State) (h : decode w = .ok i) :
    step (s.withCommand w) = retireResult (exec i (issue s w)) := by
  rw [step_withCommand, runCommand, h]

/-- An illegal word, accepted and stepped, completes with ILLEGAL_COMMAND and is retired (R162, R166). -/
theorem step_withCommand_of_decode_error {w : Word} {e : DecodeError} (s : State) (h : decode w = .error e) :
    step (s.withCommand w) = .next (retire ((issue s w).finish .illegalCommand)) := by
  rw [step_withCommand, runCommand, h]
  rfl

/-- NOP is `finish(NONE)` (R161). -/
theorem exec_nop (s : State) : exec .nop s = .next (s.finish .none) := rfl

/-- Settles O1: word 0 decodes to NOP, and the command's end keeps the BUSYWR and XSTATE that the issue cleared. -/
theorem nopCompletes : Obligations.NopCompletes := by
  intro s
  have hword : decode 0x00000000#32 = .ok .nop := (decode_eq_ok_iff _ _).mpr rfl
  refine ⟨exec_nop s, ?_⟩
  rw [step_withCommand_of_decode_ok s hword, exec_nop]
  rfl

/-- The five command words are at most 4 (R71). -/
theorem encode_toNat_le (i : Instr) : (encode i).toNat ≤ 4 := by
  cases i <;> decide

/-- A word above 4 is no command's word, so the decoder rejects it (R72). -/
theorem exists_decode_error_of_four_lt {w : Word} (hw : 4 < w.toNat) : ∃ e, decode w = .error e := by
  cases h : decode w with
  | error e => exact ⟨e, rfl⟩
  | ok i =>
    have hle := encode_toNat_le i
    rw [← (decode_eq_ok_iff w i).mp h] at hle
    exact absurd hw hle.not_gt

/-- Settles O2: a word above 4 is rejected by the decoder, whichever of the two reasons it names. -/
theorem illegalWordCompletes : Obligations.IllegalWordCompletes := by
  intro s w hw
  obtain ⟨e, he⟩ := exists_decode_error_of_four_lt hw
  exact step_withCommand_of_decode_error s he

end Sys2Proof.Proofs
end

section
/-! The Transport Codec (40_transport_codec.md): the alphabet (R100), the encoder character by character (R101), the
codec laws (R103 to R105), and the bits of a transport string (R108). -/

namespace Sys2Proof.Proofs

open Sys2Proof Sys2Proof.Machine Sys2Proof.Laws

/-! ### The alphabet -/

/-- The byte of a symbol value is the one the table of R100 gives it. -/
@[simp] theorem sym_toNat (v : BitVec 6) : (sym v).toNat = symbolOf v.toNat := by
  revert v; decide +kernel

/-- The table of R100 names each of its bytes once. -/
theorem symbolOf_inj {v v' : Nat} (hv : v < 64) (hv' : v' < 64) (h : symbolOf v = symbolOf v') : v = v' := by
  have hsym : sym (BitVec.ofNat 6 v) = sym (BitVec.ofNat 6 v') := by
    apply BitVec.eq_of_toNat_eq
    simpa [Nat.mod_eq_of_lt hv, Nat.mod_eq_of_lt hv'] using h
  have hval : BitVec.ofNat 6 v = BitVec.ofNat 6 v' := by simpa using congrArg val? hsym
  simpa [Nat.mod_eq_of_lt hv, Nat.mod_eq_of_lt hv'] using congrArg BitVec.toNat hval

/-- The symbols are exactly the bytes of the table. -/
theorem isSym_iff (c : Byte) : isSym c = true ↔ ∃ v, v < 64 ∧ c.toNat = symbolOf v := by
  constructor
  · intro h
    refine ⟨(quartetVal c).toNat, (quartetVal c).isLt, ?_⟩
    rw [← sym_toNat, sym_quartetVal c h]
  · rintro ⟨v, hv, hc⟩
    have hsym : c = sym (BitVec.ofNat 6 v) := by
      apply BitVec.eq_of_toNat_eq
      simpa [Nat.mod_eq_of_lt hv] using hc
    rw [hsym, isSym_sym]

/-- Settles O54, from the table's bytes and the laws of `sym` and `val?`. -/
theorem b64Alphabet : Obligations.B64Alphabet :=
  ⟨rfl, isSym_padByte, fun v => ⟨sym_toNat v, val?_sym v⟩, isSym_iff⟩

/-! ### The 24 bits of a group and of a quartet as numbers -/

/-- A field of 24 bits as a number. -/
theorem extractLsb'_toNat_eq (x : BitVec 24) (start len : Nat) :
    (x.extractLsb' start len).toNat = x.toNat / 2 ^ start % 2 ^ len := by
  rw [BitVec.extractLsb'_toNat, Nat.shiftRight_eq_div_pow]

theorem groupBits_toNat (b0 b1 b2 : Byte) :
    (groupBits b0 b1 b2).toNat = b0.toNat * 65536 + b1.toNat * 256 + b2.toNat := by
  obtain ⟨h0, h1, h2⟩ := groupBits_fields b0 b1 b2
  have hlt := (groupBits b0 b1 b2).isLt
  replace h0 := congrArg BitVec.toNat h0
  replace h1 := congrArg BitVec.toNat h1
  replace h2 := congrArg BitVec.toNat h2
  simp only [extractLsb'_toNat_eq] at h0 h1 h2
  omega

theorem quartetBits_toNat (s0 s1 s2 s3 : Byte) :
    (quartetBits s0 s1 s2 s3).toNat =
      (quartetVal s0).toNat * 262144 + (quartetVal s1).toNat * 4096 + (quartetVal s2).toNat * 64 +
        (quartetVal s3).toNat := by
  obtain ⟨h0, h1, h2, h3⟩ := quartetBits_fields s0 s1 s2 s3
  have hlt := (quartetBits s0 s1 s2 s3).isLt
  replace h0 := congrArg BitVec.toNat h0
  replace h1 := congrArg BitVec.toNat h1
  replace h2 := congrArg BitVec.toNat h2
  replace h3 := congrArg BitVec.toNat h3
  simp only [extractLsb'_toNat_eq] at h0 h1 h2 h3
  omega

/-! ### The encoder, character by character -/

/-- Induction over the groups of three bytes the encoder works on. -/
theorem groups_induction {P : List Byte → Prop} (nil : P []) (one : ∀ b0, P [b0]) (two : ∀ b0 b1, P [b0, b1])
    (group : ∀ b0 b1 b2 rest, P rest → P (b0 :: b1 :: b2 :: rest)) : ∀ b, P b
  | [] => nil
  | [b0] => one b0
  | [b0, b1] => two b0 b1
  | b0 :: b1 :: b2 :: rest => group b0 b1 b2 rest (groups_induction nil one two group rest)

/-- The encoder on a last group of one byte. -/
theorem b64Enc_one (b0 : Byte) :
    b64Enc [b0] =
      [sym ((groupBits b0 0#8 0#8).extractLsb' 18 6), sym ((groupBits b0 0#8 0#8).extractLsb' 12 6), padByte,
        padByte] := rfl

/-- The encoder on a last group of two bytes. -/
theorem b64Enc_two (b0 b1 : Byte) :
    b64Enc [b0, b1] =
      [sym ((groupBits b0 b1 0#8).extractLsb' 18 6), sym ((groupBits b0 b1 0#8).extractLsb' 12 6),
        sym ((groupBits b0 b1 0#8).extractLsb' 6 6), padByte] := rfl

theorem b64Enc_length (b : List Byte) : (b64Enc b).length = 4 * ((b.length + 2) / 3) := by
  induction b using groups_induction with
  | nil => rfl
  | one b0 => simp [b64Enc_one]
  | two b0 b1 => simp [b64Enc_two]
  | group b0 b1 b2 rest ih =>
    rw [b64Enc_group]
    simp only [List.length_cons, ih]
    omega

/-- The 24 bits of group `g`, with 0 for a byte the last group lacks (R101). -/
def groupAt (b : List Byte) (g : Nat) : BitVec 24 :=
  groupBits (b.getD (3 * g) 0#8) (b.getD (3 * g + 1) 0#8) (b.getD (3 * g + 2) 0#8)

/-- Past the first group, a group is one of the remaining bytes. -/
theorem groupAt_cons_succ (b0 b1 b2 : Byte) (rest : List Byte) (g : Nat) :
    groupAt (b0 :: b1 :: b2 :: rest) (g + 1) = groupAt rest g := rfl

theorem groupAt_toNat (b : List Byte) (g : Nat) :
    (groupAt b g).toNat =
      (b.getD (3 * g) 0#8).toNat * 65536 + (b.getD (3 * g + 1) 0#8).toNat * 256 + (b.getD (3 * g + 2) 0#8).toNat :=
  groupBits_toNat ..

/-- R101 in one equation: character `j` of group `g` is the symbol of the group's `j`-th 6-bit field where the group has
at least `j` bytes, and the pad where it has fewer. -/
theorem b64Enc_getD (b : List Byte) (g j : Nat) (hg : 3 * g < b.length) (hj : j < 4) :
    (b64Enc b).getD (4 * g + j) 0#8 =
      if 3 * g + j ≤ b.length then sym ((groupAt b g).extractLsb' (18 - 6 * j) 6) else padByte := by
  induction b using groups_induction generalizing g with
  | nil => cases hg
  | one b0 =>
    obtain rfl : g = 0 := by simp only [List.length_singleton] at hg; omega
    interval_cases j <;> rfl
  | two b0 b1 =>
    obtain rfl : g = 0 := by simp only [List.length_cons, List.length_nil] at hg; omega
    interval_cases j <;> rfl
  | group b0 b1 b2 rest ih =>
    rw [b64Enc_group]
    cases g with
    | zero => interval_cases j <;> simp [groupAt]
    | succ g =>
      have hrest := ih g (by simp only [List.length_cons] at hg; omega)
      have hplace : 3 * (g + 1) + j ≤ (b0 :: b1 :: b2 :: rest).length ↔ 3 * g + j ≤ rest.length := by
        simp only [List.length_cons]; omega
      rw [show 4 * (g + 1) + j = 4 * g + j + 1 + 1 + 1 + 1 by omega]
      simp only [List.getD_cons_succ, groupAt_cons_succ, hplace, hrest]

/-- The same character as a number. -/
theorem b64Enc_getD_toNat (b : List Byte) (g j : Nat) (hg : 3 * g < b.length) (hj : j < 4) :
    ((b64Enc b).getD (4 * g + j) 0#8).toNat =
      if 3 * g + j ≤ b.length then symbolOf ((groupAt b g).toNat / 2 ^ (18 - 6 * j) % 64) else 0x3D := by
  rw [b64Enc_getD b g j hg hj]
  split
  · simp only [sym_toNat, extractLsb'_toNat_eq, Nat.reducePow]
  · rfl

/-- Settles O55: the encoder character by character, with each group's 24 bits read as a number. -/
theorem b64EncGroups : Obligations.B64EncGroups := by
  intro b
  refine ⟨b64Enc_length b, fun g x hg hx => ?_⟩
  rw [← groupAt_toNat] at hx
  have hlt := (groupAt b g).isLt
  have char := b64Enc_getD_toNat b g
  refine ⟨?_, ?_, ?_, ?_⟩
  · rw [← Nat.add_zero (4 * g), char 0 hg (by decide), if_pos (by omega), hx]
    congr 1
    omega
  · rw [char 1 hg (by decide), if_pos (by omega), hx]
    rfl
  · rw [char 2 hg (by decide), hx]
    rfl
  · rw [char 3 hg (by decide), hx]
    simp only [Nat.lt_iff_add_one_le, Nat.sub_self, Nat.pow_zero, Nat.div_one]

/-- A character of the encoding stands in a group of the message. -/
theorem exists_group_of_lt_b64Enc_length {b : List Byte} {i : Nat} (hi : i < (b64Enc b).length) :
    ∃ g j, i = 4 * g + j ∧ j < 4 ∧ 3 * g < b.length := by
  rw [b64Enc_length] at hi
  exact ⟨i / 4, i % 4, by omega, by omega, by omega⟩

/-- Settles O28: the length, and in each group the places past its bytes are the pads. -/
theorem b64EncShape : Obligations.B64EncShape := by
  intro b
  refine ⟨b64Enc_length b, fun i hi => ?_⟩
  obtain ⟨g, j, rfl, hj, hg⟩ := exists_group_of_lt_b64Enc_length hi
  rw [b64Enc_getD b g j hg hj, b64Enc_length]
  split
  · refine ⟨.inl (isSym_sym _), iff_of_false (sym_ne_padByte _) (by omega)⟩
  · exact ⟨.inr rfl, iff_of_true rfl (by omega)⟩

/-! ### Validity and the codec laws -/

/-- Four symbols in front of a string change nothing about its validity (R103). -/
theorem b64Valid_cons_syms {s0 s1 s2 s3 : Byte} (t : List Byte) (h0 : isSym s0 = true) (h1 : isSym s1 = true)
    (h2 : isSym s2 = true) (h3 : isSym s3 = true) : b64Valid (s0 :: s1 :: s2 :: s3 :: t) = b64Valid t := by
  cases t with
  | nil => simp [b64Valid, lastQuartetValid, h0, h1, h2, h3]
  | cons s4 rest => simp [b64Valid_quartet, h0, h1, h2, h3]

/-- A valid string is empty, four symbols before a valid string, or a last quartet with one or two pads whose unused
bits are 0 (R103). -/
inductive ValidShape : List Byte → Prop
  | nil : ValidShape []
  | quartet (s0 s1 s2 s3 : Byte) (rest : List Byte) (h0 : isSym s0 = true) (h1 : isSym s1 = true)
      (h2 : isSym s2 = true) (h3 : isSym s3 = true) (hrest : ValidShape rest) :
      ValidShape (s0 :: s1 :: s2 :: s3 :: rest)
  | onePad (s0 s1 s2 : Byte) (h0 : isSym s0 = true) (h1 : isSym s1 = true) (h2 : isSym s2 = true)
      (hunused : (quartetVal s2).toNat % 4 = 0) : ValidShape [s0, s1, s2, padByte]
  | twoPads (s0 s1 : Byte) (h0 : isSym s0 = true) (h1 : isSym s1 = true)
      (hunused : (quartetVal s1).toNat % 16 = 0) : ValidShape [s0, s1, padByte, padByte]

/-- The validity check accepts only strings of that shape. -/
theorem validShape_of_b64Valid : ∀ t : List Byte, b64Valid t = true → ValidShape t
  | [], _ => .nil
  | [_], h => by simp [b64Valid] at h
  | [_, _], h => by simp [b64Valid] at h
  | [_, _, _], h => by simp [b64Valid] at h
  | [s0, s1, s2, s3], h => by
    have hlast : lastQuartetValid [s0, s1, s2, s3] = true := by simpa [b64Valid] using h
    simp only [lastQuartetValid, Bool.and_eq_true, Bool.or_eq_true, beq_iff_eq] at hlast
    obtain ⟨⟨h0, h1⟩, (⟨h2, h3⟩ | ⟨⟨h2, rfl⟩, hunused⟩) | ⟨⟨rfl, rfl⟩, hunused⟩⟩ := hlast
    · exact .quartet _ _ _ _ [] h0 h1 h2 h3 .nil
    · exact .onePad _ _ _ h0 h1 h2 hunused
    · exact .twoPads _ _ h0 h1 hunused
  | s0 :: s1 :: s2 :: s3 :: s4 :: rest, h => by
    rw [b64Valid_quartet] at h
    simp only [Bool.and_eq_true] at h
    obtain ⟨⟨⟨⟨h0, h1⟩, h2⟩, h3⟩, hrest⟩ := h
    exact .quartet _ _ _ _ _ h0 h1 h2 h3 (validShape_of_b64Valid _ hrest)

/-- And accepts all of them. -/
theorem b64Valid_of_validShape {t : List Byte} (h : ValidShape t) : b64Valid t = true := by
  induction h with
  | nil => rfl
  | quartet s0 s1 s2 s3 rest h0 h1 h2 h3 _ ih => rw [b64Valid_cons_syms rest h0 h1 h2 h3, ih]
  | onePad s0 s1 s2 h0 h1 h2 hunused => simp [b64Valid, lastQuartetValid, h0, h1, h2, hunused]
  | twoPads s0 s1 h0 h1 hunused => simp [b64Valid, lastQuartetValid, h0, h1, hunused]

/-- The decoder on a quartet of symbols. -/
theorem b64Dec_cons_syms {s0 s1 s2 s3 : Byte} (t : List Byte) (h2 : isSym s2 = true) (h3 : isSym s3 = true) :
    b64Dec (s0 :: s1 :: s2 :: s3 :: t) =
      (quartetBits s0 s1 s2 s3).extractLsb' 16 8 :: (quartetBits s0 s1 s2 s3).extractLsb' 8 8 ::
      (quartetBits s0 s1 s2 s3).extractLsb' 0 8 :: b64Dec t := by
  simp [b64Dec_quartet, quartetBytes, ne_padByte_of_isSym h2, ne_padByte_of_isSym h3]

/-- The decoder on a last quartet with one pad. -/
theorem b64Dec_onePad {s0 s1 s2 : Byte} (h2 : isSym s2 = true) :
    b64Dec [s0, s1, s2, padByte] =
      [(quartetBits s0 s1 s2 padByte).extractLsb' 16 8, (quartetBits s0 s1 s2 padByte).extractLsb' 8 8] := by
  simp [b64Dec, quartetBytes, ne_padByte_of_isSym h2]

/-- The decoder on a last quartet with two pads. -/
theorem b64Dec_twoPads (s0 s1 : Byte) :
    b64Dec [s0, s1, padByte, padByte] = [(quartetBits s0 s1 padByte padByte).extractLsb' 16 8] := by
  simp [b64Dec, quartetBytes]

/-- The encoder takes a group read off 24 bits back to the symbols of their fields. -/
theorem b64Enc_fields_cons (x : BitVec 24) (rest : List Byte) :
    b64Enc (x.extractLsb' 16 8 :: x.extractLsb' 8 8 :: x.extractLsb' 0 8 :: rest) =
      sym (x.extractLsb' 18 6) :: sym (x.extractLsb' 12 6) :: sym (x.extractLsb' 6 6) :: sym (x.extractLsb' 0 6) ::
        b64Enc rest := by
  rw [b64Enc_group, groupBits_of_fields]

theorem extractLsb'_eq_zero {x : BitVec 24} {start len : Nat} (h : x.toNat / 2 ^ start % 2 ^ len = 0) :
    x.extractLsb' start len = 0#len := by
  apply BitVec.eq_of_toNat_eq
  rwa [extractLsb'_toNat_eq, BitVec.toNat_zero]

/-- R105: on a valid string the encoder inverts the decoder. The unused bits of a padded quartet are 0, so its 24 bits
are those of the group it decodes to. -/
theorem b64Enc_b64Dec {t : List Byte} (h : ValidShape t) : b64Enc (b64Dec t) = t := by
  induction h with
  | nil => rfl
  | quartet s0 s1 s2 s3 rest h0 h1 h2 h3 _ ih =>
    obtain ⟨f0, f1, f2, f3⟩ := quartetBits_fields s0 s1 s2 s3
    rw [b64Dec_cons_syms rest h2 h3, b64Enc_fields_cons, ih, f0, f1, f2, f3, sym_quartetVal s0 h0,
      sym_quartetVal s1 h1, sym_quartetVal s2 h2, sym_quartetVal s3 h3]
  | onePad s0 s1 s2 h0 h1 h2 hunused =>
    obtain ⟨f0, f1, f2, _⟩ := quartetBits_fields s0 s1 s2 padByte
    have hx := quartetBits_toNat s0 s1 s2 padByte
    simp only [quartetVal_padByte, BitVec.toNat_zero] at hx
    have hlow : (quartetBits s0 s1 s2 padByte).extractLsb' 0 8 = 0#8 := extractLsb'_eq_zero (by omega)
    have hgroup := groupBits_of_fields (quartetBits s0 s1 s2 padByte)
    rw [hlow] at hgroup
    rw [b64Dec_onePad h2, b64Enc_two, hgroup, f0, f1, f2, sym_quartetVal s0 h0, sym_quartetVal s1 h1,
      sym_quartetVal s2 h2]
  | twoPads s0 s1 h0 h1 hunused =>
    obtain ⟨f0, f1, _, _⟩ := quartetBits_fields s0 s1 padByte padByte
    have hx := quartetBits_toNat s0 s1 padByte padByte
    simp only [quartetVal_padByte, BitVec.toNat_zero] at hx
    have hmid : (quartetBits s0 s1 padByte padByte).extractLsb' 8 8 = 0#8 := extractLsb'_eq_zero (by omega)
    have hlow : (quartetBits s0 s1 padByte padByte).extractLsb' 0 8 = 0#8 := extractLsb'_eq_zero (by omega)
    have hgroup := groupBits_of_fields (quartetBits s0 s1 padByte padByte)
    rw [hmid, hlow] at hgroup
    rw [b64Dec_twoPads, b64Enc_one, hgroup, f0, f1, sym_quartetVal s0 h0, sym_quartetVal s1 h1]

/-- The quartet of a last group of two bytes has the group's bits. -/
theorem quartetBits_onePad (b0 b1 : Byte) :
    quartetBits (sym ((groupBits b0 b1 0#8).extractLsb' 18 6)) (sym ((groupBits b0 b1 0#8).extractLsb' 12 6))
      (sym ((groupBits b0 b1 0#8).extractLsb' 6 6)) padByte = groupBits b0 b1 0#8 := by
  apply BitVec.eq_of_toNat_eq
  have hx := groupBits_toNat b0 b1 0#8
  simp only [quartetBits_toNat, quartetVal_sym, quartetVal_padByte, extractLsb'_toNat_eq, BitVec.toNat_zero] at hx ⊢
  omega

/-- The quartet of a last group of one byte has the group's bits. -/
theorem quartetBits_twoPads (b0 : Byte) :
    quartetBits (sym ((groupBits b0 0#8 0#8).extractLsb' 18 6)) (sym ((groupBits b0 0#8 0#8).extractLsb' 12 6))
      padByte padByte = groupBits b0 0#8 0#8 := by
  apply BitVec.eq_of_toNat_eq
  have hx := groupBits_toNat b0 0#8 0#8
  simp only [quartetBits_toNat, quartetVal_sym, quartetVal_padByte, extractLsb'_toNat_eq, BitVec.toNat_zero] at hx ⊢
  omega

/-- Every encoding is valid: the unused bits of its last quartet come from the 0 bits of the bytes the last group
lacks. -/
theorem validShape_b64Enc (b : List Byte) : ValidShape (b64Enc b) := by
  induction b using groups_induction with
  | nil => exact .nil
  | one b0 =>
    rw [b64Enc_one]
    refine .twoPads _ _ (isSym_sym _) (isSym_sym _) ?_
    simp only [quartetVal_sym, extractLsb'_toNat_eq, groupBits_toNat, BitVec.toNat_zero]
    omega
  | two b0 b1 =>
    rw [b64Enc_two]
    refine .onePad _ _ _ (isSym_sym _) (isSym_sym _) (isSym_sym _) ?_
    simp only [quartetVal_sym, extractLsb'_toNat_eq, groupBits_toNat, BitVec.toNat_zero]
    omega
  | group b0 b1 b2 rest ih =>
    exact .quartet _ _ _ _ _ (isSym_sym _) (isSym_sym _) (isSym_sym _) (isSym_sym _) ih

/-- R105: the decoder inverts the encoder. -/
theorem b64Dec_b64Enc (b : List Byte) : b64Dec (b64Enc b) = b := by
  induction b using groups_induction with
  | nil => rfl
  | one b0 =>
    rw [b64Enc_one, b64Dec_twoPads, quartetBits_twoPads, (groupBits_fields b0 0#8 0#8).1]
  | two b0 b1 =>
    obtain ⟨f0, f1, _⟩ := groupBits_fields b0 b1 0#8
    rw [b64Enc_two, b64Dec_onePad (isSym_sym _), quartetBits_onePad, f0, f1]
  | group b0 b1 b2 rest ih =>
    obtain ⟨f0, f1, f2⟩ := groupBits_fields b0 b1 b2
    rw [b64Enc_group, b64Dec_cons_syms _ (isSym_sym _) (isSym_sym _), quartetBits_groupSyms, f0, f1, f2, ih]

/-- Settles O29: both laws by induction over the groups. -/
theorem b64DecodeInvertsEncode : Obligations.B64DecodeInvertsEncode := fun b =>
  ⟨b64Valid_of_validShape (validShape_b64Enc b), b64Dec_b64Enc b⟩

/-- A valid string is the encoding of what it decodes to. -/
theorem b64Enc_b64Dec_of_b64Valid {t : List Byte} (h : b64Valid t = true) : b64Enc (b64Dec t) = t :=
  b64Enc_b64Dec (validShape_of_b64Valid t h)

/-- Settles O30: the decoding of a valid string is what it encodes, and every encoding is valid. -/
theorem b64ValidIsEncoderImage : Obligations.B64ValidIsEncoderImage := by
  refine fun t => ⟨⟨fun h => ⟨b64Dec t, (b64Enc_b64Dec_of_b64Valid h).symm⟩, ?_⟩, b64Enc_b64Dec_of_b64Valid⟩
  rintro ⟨b, rfl⟩
  exact b64Valid_of_validShape (validShape_b64Enc b)

/-! ### The decoder, through the encoder: a valid string is `b64Enc b`, and `b` is what it decodes to -/

/-- A last group of one byte gives two pads, one of two bytes one pad. -/
theorem count_padByte_b64Enc (b : List Byte) : (b64Enc b).count padByte = 2 * b.length % 3 := by
  induction b using groups_induction with
  | nil => rfl
  | one b0 => simp [b64Enc_one, sym_ne_padByte]
  | two b0 b1 => simp [b64Enc_two, sym_ne_padByte]
  | group b0 b1 b2 rest ih =>
    simp only [b64Enc_group, List.count_cons_of_ne (sym_ne_padByte _), ih, List.length_cons]
    omega

/-- Settles O31: for the encoding of `b` the length law is arithmetic on the length of `b`. -/
theorem b64DecLength : Obligations.B64DecLength := by
  intro t ht
  rw [← b64Enc_b64Dec_of_b64Valid ht]
  rw [b64Dec_b64Enc, b64Enc_length, count_padByte_b64Enc]
  omega

/-- The value of character `j` of group `g` of an encoding, 0 for a pad, is the group's `j`-th 6-bit field: where the
character is a pad that field is 0. -/
theorem value_of_b64Enc_getD {b : List Byte} {g j v : Nat} (hg : 3 * g < b.length) (hj : j < 4)
    (hv : (v < 64 ∧ ((b64Enc b).getD (4 * g + j) 0#8).toNat = symbolOf v) ∨
      (v = 0 ∧ (b64Enc b).getD (4 * g + j) 0#8 = 0x3D#8)) :
    v = (groupAt b g).toNat / 2 ^ (18 - 6 * j) % 64 := by
  rw [b64Enc_getD b g j hg hj] at hv
  split at hv
  next hplace =>
    obtain ⟨hlt, hsym⟩ | ⟨_, hpad⟩ := hv
    · rw [sym_toNat, extractLsb'_toNat_eq] at hsym
      exact symbolOf_inj hlt (Nat.mod_lt _ (by decide)) hsym.symm
    · exact absurd hpad (sym_ne_padByte _)
  next hplace =>
    obtain ⟨hlt, hsym⟩ | ⟨rfl, _⟩ := hv
    · exact absurd ((isSym_iff padByte).mpr ⟨v, hlt, hsym⟩) (by simp)
    · have h2 : b.getD (3 * g + 2) 0#8 = 0#8 := List.getD_eq_default _ _ (by omega)
      have hx := groupAt_toNat b g
      rw [h2, BitVec.toNat_zero] at hx
      obtain rfl | rfl : j = 2 ∨ j = 3 := by omega
      · have h1 : b.getD (3 * g + 1) 0#8 = 0#8 := List.getD_eq_default _ _ (by omega)
        rw [h1, BitVec.toNat_zero] at hx
        change 0 = _ / 2 ^ 6 % 64
        omega
      · change 0 = _ / 2 ^ 0 % 64
        omega

/-- A character of an encoding is the pad exactly past the bytes of its group. -/
theorem b64Enc_getD_eq_padByte_iff {b : List Byte} {g j : Nat} (hg : 3 * g < b.length) (hj : j < 4) :
    (b64Enc b).getD (4 * g + j) 0#8 = 0x3D#8 ↔ b.length < 3 * g + j := by
  rw [b64Enc_getD b g j hg hj]
  split
  next hplace => exact iff_of_false (sym_ne_padByte _) (by omega)
  next hplace => exact iff_of_true rfl (by omega)

/-- Settles O56: a valid string is the encoding of its decoding, and there the quartet's number is that of the group. -/
theorem b64DecGroups : Obligations.B64DecGroups := by
  intro t q x v ht hq hv hx
  obtain ⟨b, rfl⟩ := ((b64ValidIsEncoderImage t).1).mp ht
  have hg : 3 * q < b.length := by rw [b64Enc_length] at hq; omega
  have value := fun j hj => value_of_b64Enc_getD hg hj (hv j hj)
  rw [value 0 (by decide), value 1 (by decide), value 2 (by decide), value 3 (by decide)] at hx
  have hnum := groupAt_toNat b q
  have hpad2 := b64Enc_getD_eq_padByte_iff hg (show 2 < 4 by decide)
  have hpad3 := b64Enc_getD_eq_padByte_iff hg (show 3 < 4 by decide)
  rw [b64Dec_b64Enc, ne_eq, ne_eq, hpad2, hpad3]
  omega

/-! ### The bits of a transport string -/

/-- The first bit of a symbol or the pad is 0, and among any five consecutive bits of it stands a 0 (R108); so too for
the byte 0, which stands for what lies past a string. -/
theorem exists_zero_bit_of_transport_char : ∀ c : Byte, isSym c = true ∨ c = padByte ∨ c = 0#8 →
    c.getLsbD 7 = false ∧ ∀ r, r < 4 → ∃ j, j < 5 ∧ c.getLsbD (7 - (r + j)) = false := by
  decide +kernel

/-- The bits of a list of bytes, past its end too. -/
theorem flatMap_bits8_getD (t : List Byte) (i j : Nat) (hj : j < 8) :
    (t.flatMap bits8).getD (8 * i + j) false = (t.getD i 0#8).getLsbD (7 - j) := by
  by_cases hi : i < t.length
  · rw [List.getD_eq_getElem?_getD, flatMap_bits8_getElem? t i j hi hj, bits8_getElem? _ j hj,
      ← List.getElem_eq_getD (h := hi)]
    rfl
  · rw [List.getD_eq_default _ _ (by rw [flatMap_bits8_length]; omega), List.getD_eq_default _ _ (by omega)]
    simp

/-- A character of a transport string, or the byte 0 past its end. -/
theorem transport_char_getD {t : List Byte} (ht : ∀ c, c ∈ t → isSym c = true ∨ c = padByte) (i : Nat) :
    isSym (t.getD i 0#8) = true ∨ t.getD i 0#8 = padByte ∨ t.getD i 0#8 = 0#8 := by
  by_cases hi : i < t.length
  · have hmem : t.getD i 0#8 ∈ t := by
      rw [← List.getElem_eq_getD (h := hi)]
      exact List.getElem_mem hi
    exact (ht _ hmem).imp_right .inl
  · exact .inr (.inr (List.getD_eq_default _ _ (by omega)))

/-- Settles O32: five bits lie in one character, where no five consecutive bits are 1, or reach the first bit of the
next one, which is 0. -/
theorem noFiveOnesInTransportBits : Obligations.NoFiveOnesInTransportBits := by
  intro t ht k
  have char := fun i => exists_zero_bit_of_transport_char _ (transport_char_getD ht i)
  by_cases hin : k % 8 < 4
  · obtain ⟨j, hj, hzero⟩ := (char (k / 8)).2 (k % 8) hin
    refine ⟨j, hj, ?_⟩
    rw [show k + j = 8 * (k / 8) + (k % 8 + j) by omega, flatMap_bits8_getD t _ _ (by omega)]
    exact hzero
  · refine ⟨8 - k % 8, by omega, ?_⟩
    rw [show k + (8 - k % 8) = 8 * (k / 8 + 1) + 0 by omega, flatMap_bits8_getD t _ _ (by decide)]
    exact (char (k / 8 + 1)).1

end Sys2Proof.Proofs
end

section
/-! The Bit-Channel Embedder (41_embedder.md): the required bits (R121), a successful EMBED as one state, and what the
carriers hold after it (R122 to R127). -/

namespace Sys2Proof.Proofs

open Sys2Proof Sys2Proof.Machine Sys2Proof.Laws

/-! ### The required bits -/

/-- The stream of an encoded message in closed form (R121). -/
theorem ser_b64Enc_length (m : List Byte) : (ser (b64Enc m)).length = reqBits m.length := by
  rw [ser_length, b64Enc_length, reqBits]
  omega

/-- Settles O33: the closed form, and arithmetic on it. -/
theorem requiredBits : Obligations.RequiredBits := by
  intro m P
  rw [ser_b64Enc_length, reqBits]
  omega

@[simp] theorem message_length (s : State) : s.message.length = s.blen.toNat := by
  simp [State.message, State.prefixOf]

/-- The stream EMBED writes. -/
def embedStream (s : State) : List Bool := ser (b64Enc s.message)

@[simp] theorem embedStream_length (s : State) : (embedStream s).length = reqBits s.blen.toNat := by
  rw [embedStream, ser_b64Enc_length, message_length]

/-! ### A successful EMBED as one state -/

/-- The state a successful EMBED ends in (R124). -/
def afterEmbed (s : State) : State :=
  ((s.setBits (reqBits s.blen.toNat)).setBank .pix (Mem.embedFrom s.resets s.pix 0 (embedStream s))).finish .none

/-- EMBED of a message the buffer has room for. -/
theorem exec_embed_of_room {s : State} (hpix : s.pixcnt.toNat ≤ s.params.maxPixels)
    (hbytes : s.blen.toNat ≤ s.params.maxBytes) (hroom : reqBits s.blen.toNat ≤ s.carriers) :
    exec .embed s = .next (afterEmbed s) := by
  have hlen : (ser (b64Enc s.message)).length = reqBits s.blen.toNat := embedStream_length s
  rcases execEmbed_cases s with ⟨hlong, _⟩ | ⟨_, _, hover, _⟩ | ⟨_, _, _, hexec⟩
  · omega
  · omega
  · rw [hlen] at hexec
    exact hexec

/-- EMBED of a message the buffer has no room for. -/
theorem exec_embed_of_no_room {s : State} (hpix : s.pixcnt.toNat ≤ s.params.maxPixels)
    (hbytes : s.blen.toNat ≤ s.params.maxBytes) (hover : s.carriers < reqBits s.blen.toNat) :
    exec .embed s = .next ((s.setBits (reqBits s.blen.toNat)).finish .capacityExceeded) := by
  have hlen : (ser (b64Enc s.message)).length = reqBits s.blen.toNat := embedStream_length s
  rcases execEmbed_cases s with ⟨hlong, _⟩ | ⟨_, _, _, hexec⟩ | ⟨_, _, hroom, _⟩
  · omega
  · rw [hlen] at hexec
    exact hexec
  · omega

/-- An EMBED that ends without an error had room for its stream, and ends in `afterEmbed`. -/
theorem embed_success {s t : State} (h : exec .embed s = .next t) (he : t.errcode = .none) :
    s.pixcnt.toNat ≤ s.params.maxPixels ∧ s.blen.toNat ≤ s.params.maxBytes ∧ reqBits s.blen.toNat ≤ s.carriers ∧
      t = afterEmbed s := by
  have hlen : (ser (b64Enc s.message)).length = reqBits s.blen.toNat := embedStream_length s
  rcases execEmbed_cases s with ⟨_, hexec⟩ | ⟨_, _, _, hexec⟩ | ⟨hpix, hbytes, hroom, hexec⟩
  · cases h.symm.trans hexec
    cases he
  · cases h.symm.trans hexec
    cases he
  · rw [hlen] at hroom
    refine ⟨hpix, hbytes, hroom, ?_⟩
    cases h.symm.trans (exec_embed_of_room hpix hbytes hroom)
    rfl

/-- Settles O35: `ceil(req/3)` pixels have `req` carriers or more, and one pixel fewer has less. -/
theorem capacityBoundary : Obligations.CapacityBoundary := by
  intro s P hlegal hbytes hP hmax
  obtain ⟨_, hpixels, _⟩ := hlegal
  have hcount : ∀ n, n ≤ P → (BitVec.ofNat 32 n).toNat = n := by
    intro n hn
    rw [BitVec.toNat_ofNat, Nat.mod_eq_of_lt (by omega)]
  have hreq : 16 ≤ reqBits s.blen.toNat := Nat.le_add_left ..
  constructor
  · refine ⟨_, exec_embed_of_room ?_ hbytes ?_, rfl⟩
    · simpa [hcount] using hmax
    · simp only [State.carriers, hcount P le_rfl]; omega
  · refine ⟨_, exec_embed_of_no_room ?_ hbytes ?_, rfl, fun a => rfl⟩
    · simp only [hcount (P - 1) (by omega)]; omega
    · simp only [State.carriers, hcount (P - 1) (by omega)]; omega

/-! ### What the carriers hold after it -/

/-- Each carrier of the stream has its bit in place of bit 0 (R122). -/
theorem byteAt_afterEmbed_carrier {s : State} {k : Nat} (hk : k < reqBits s.blen.toNat) :
    (afterEmbed s).byteAt .pix (carrierIndex k) =
      putLsb (s.byteAt .pix (carrierIndex k)) ((embedStream s).getD k false) := by
  have hk' : k < (embedStream s).length := by rwa [embedStream_length]
  have hwritten := byteAt_embedFrom_inside s.resets (embedStream s) s.pix 0 k hk'
  rwa [Nat.zero_add, List.getElem_eq_getD false] at hwritten

/-- Every other byte of every memory is as it was (R123). -/
theorem byteAt_afterEmbed_frame {s : State} {b : Bank} {a : Nat}
    (h : b = .pix → ∀ k, k < reqBits s.blen.toNat → a ≠ carrierIndex k) :
    (afterEmbed s).byteAt b a = s.byteAt b a := by
  rw [afterEmbed, byteAt_finish, ← byteAt_setBits s (reqBits s.blen.toNat)]
  exact byteAt_setBank_embedFrom_frame (s.setBits _) _ b a (by rwa [embedStream_length])

/-- After a successful EMBED the bits of the carriers are the stream (R140). -/
theorem lsb_afterEmbed {s : State} {k : Nat} (hk : k < reqBits s.blen.toNat) :
    (afterEmbed s).lsb k = (embedStream s).getD k false :=
  (congrArg (·.getLsbD 0) (byteAt_afterEmbed_carrier hk)).trans (putLsb_bits _ _).1

/-- EMBED leaves the message alone. -/
theorem message_afterEmbed (s : State) : (afterEmbed s).message = s.message := by
  have hframe : (afterEmbed s).byteAt .bytes = s.byteAt .bytes := by
    funext a
    exact byteAt_afterEmbed_frame fun h => by cases h
  simp only [State.message, State.prefixOf, hframe]
  rfl

/-- Settles O37: the second EMBED finds the same message and the same room, and writes into each carrier the bit that
is already there. -/
theorem reembedSameMessage : Obligations.ReembedSameMessage := by
  intro s t h he
  obtain ⟨hpix, hbytes, hroom, rfl⟩ := embed_success h he
  refine ⟨_, exec_embed_of_room (s := afterEmbed s) hpix hbytes hroom, rfl, rfl, fun b a => ?_⟩
  by_cases hcarrier : b = .pix ∧ ∃ k, k < reqBits s.blen.toNat ∧ a = carrierIndex k
  · obtain ⟨rfl, k, hk, rfl⟩ := hcarrier
    have hstream : embedStream (afterEmbed s) = embedStream s := by simp only [embedStream, message_afterEmbed]
    have hk' : k < reqBits (afterEmbed s).blen.toNat := hk
    rw [byteAt_afterEmbed_carrier hk', byteAt_afterEmbed_carrier hk, hstream, putLsb_putLsb]
  · exact byteAt_afterEmbed_frame fun hb k hk ha => hcarrier ⟨hb, k, hk, ha⟩

/-! ### The per-pixel form -/

/-- A carrier channel after EMBED, with or without a position of the stream (R122, R123). -/
theorem byteAt_afterEmbed_channel (s : State) (p c : Nat) (hc : c < 3) :
    (afterEmbed s).byteAt .pix (4 * p + c) =
      if 3 * p + c < reqBits s.blen.toNat then
        putLsb (s.byteAt .pix (4 * p + c)) ((embedStream s).getD (3 * p + c) false)
      else s.byteAt .pix (4 * p + c) := by
  rw [← carrierIndex_channel p c hc]
  split
  next hk => exact byteAt_afterEmbed_carrier hk
  next hk =>
    refine byteAt_afterEmbed_frame fun _ k hk' ha => ?_
    obtain rfl := carrierIndex_inj ha
    exact hk hk'

/-- The alpha channel after EMBED. -/
theorem byteAt_afterEmbed_alpha (s : State) (p : Nat) :
    (afterEmbed s).byteAt .pix (4 * p + 3) = s.byteAt .pix (4 * p + 3) :=
  byteAt_afterEmbed_frame fun _ k _ ha => carrierIndex_ne_alpha k p ha.symm

/-- Words are equal when their four bytes are. -/
theorem word_ext_bytes {v w : Word} (h : ∀ j, j < 4 → wordByte v j = wordByte w j) : v = w := by
  rw [← bytesWord_wordByte v, ← bytesWord_wordByte w, h 0 (by decide), h 1 (by decide), h 2 (by decide),
    h 3 (by decide)]

/-- Byte `j` of the word made of four bytes, with the bytes given by their number. -/
theorem wordByte_bytesWord_apply (f : Nat → Byte) (j : Nat) (hj : j < 4) :
    wordByte (bytesWord (f 0) (f 1) (f 2) (f 3)) j = f j := by
  obtain ⟨h0, h1, h2, h3⟩ := wordByte_bytesWord (f 0) (f 1) (f 2) (f 3)
  interval_cases j
  · exact h0
  · exact h1
  · exact h2
  · exact h3

/-- The bytes of a memory's word are the memory's bytes (20_memory.md R54). -/
theorem wordByte_readWord (s : State) (b : Bank) (w j : Nat) (hj : j < 4) :
    wordByte (s.readWord b w) j = s.byteAt b (4 * w + j) :=
  wordByte_bytesWord_apply (fun j => s.byteAt b (4 * w + j)) j hj

theorem wordByte_and (v w : Word) (j : Nat) : wordByte (v &&& w) j = wordByte v j &&& wordByte w j :=
  BitVec.extractLsb'_and

theorem wordByte_or (v w : Word) (j : Nat) : wordByte (v ||| w) j = wordByte v j ||| wordByte w j :=
  BitVec.extractLsb'_or

theorem wordByte_not (v : Word) (j : Nat) (hj : j < 4) : wordByte (~~~v) j = ~~~wordByte v j := by
  ext i hi
  simp only [wordByte, BitVec.getElem_extractLsb', BitVec.getLsbD_not, BitVec.getElem_not, Bool.and_eq_right_iff_imp,
    decide_eq_true_eq]
  omega

/-- The mask of R127 seen in its own channel: bit 0, where position `3p + c` is below `req`. -/
def channelMask (req p c : Nat) : Byte := if 3 * p + c < req then 1#8 else 0#8

/-- Each mask lies in its own channel. -/
theorem wordByte_carrierMask (req p c j : Nat) (hc : c < 3) (hj : j < 4) :
    wordByte (carrierMask req p c) j = if j = c then channelMask req p c else 0#8 := by
  simp only [carrierMask, channelMask]
  split
  · interval_cases c <;> interval_cases j <;> rfl
  · interval_cases j <;> simp [wordByte]

/-- So does the mask with a stream bit in it. -/
theorem wordByte_ite_carrierMask (req p c j : Nat) (v : Bool) (hc : c < 3) (hj : j < 4) :
    wordByte (if v then carrierMask req p c else 0#32) j = if j = c ∧ v then channelMask req p c else 0#8 := by
  cases v
  · simp [wordByte]
  · simpa using wordByte_carrierMask req p c j hc hj

/-- A carrier channel after EMBED in the form of R127: the bit of its mask cleared, then the stream bit put there. -/
theorem byteAt_afterEmbed_channel_mask (s : State) (p c : Nat) (hc : c < 3) :
    (afterEmbed s).byteAt .pix (4 * p + c) =
      (s.byteAt .pix (4 * p + c) &&& ~~~channelMask (reqBits s.blen.toNat) p c) |||
        (if (embedStream s).getD (3 * p + c) false then channelMask (reqBits s.blen.toNat) p c else 0#8) := by
  rw [byteAt_afterEmbed_channel s p c hc, channelMask]
  split
  · exact putLsb_eq_or_ite _ _
  · rw [ite_self, BitVec.or_zero, BitVec.not_zero, BitVec.and_allOnes]

/-- Settles O36: the two words have the same four bytes, each carrier channel in the form of its own mask. -/
theorem embeddedPixelWord : Obligations.EmbeddedPixelWord := by
  intro s t p S h he hS req hreq
  obtain ⟨_, _, _, rfl⟩ := embed_success h he
  subst hreq
  have channel := fun c hc => byteAt_afterEmbed_channel_mask s p c hc
  have hS' : ∀ k, (embedStream s).getD k false = S k := fun k => (hS k).symm
  simp only [hS'] at channel
  apply word_ext_bytes
  intro j hj
  simp only [wordByte_or, wordByte_and, wordByte_not _ _ hj, wordByte_readWord _ _ _ _ hj,
    wordByte_carrierMask _ p _ j (show 0 < 3 by decide) hj, wordByte_carrierMask _ p _ j (show 1 < 3 by decide) hj,
    wordByte_carrierMask _ p _ j (show 2 < 3 by decide) hj,
    wordByte_ite_carrierMask _ p _ j _ (show 0 < 3 by decide) hj,
    wordByte_ite_carrierMask _ p _ j _ (show 1 < 3 by decide) hj,
    wordByte_ite_carrierMask _ p _ j _ (show 2 < 3 by decide) hj]
  interval_cases j
  · simpa using channel 0 (by decide)
  · simpa using channel 1 (by decide)
  · simpa using channel 2 (by decide)
  · have hkeep : ∀ b : Byte, b &&& 255#8 = b := fun _ => BitVec.and_allOnes
    simp [byteAt_afterEmbed_alpha, hkeep]

end Sys2Proof.Proofs
end

section
/-! The Bit-Channel Extractor (42_extractor.md): where the sentinel stands in a stream (R148), the round trip with EMBED
(R148), what the outcome of EXTRACT depends on (R149), and the outputs that fit a legal build (00_scope.md R7). -/

namespace Sys2Proof.Proofs

open Sys2Proof Sys2Proof.Machine Sys2Proof.Laws

/-! ### The sentinel in the stream of a transport string -/

/-- The characters of an encoding are symbols and pads. -/
theorem transport_char_of_mem_b64Enc {b : List Byte} {c : Byte} (hc : c ∈ b64Enc b) : isSym c = true ∨ c = padByte := by
  obtain ⟨i, hi, rfl⟩ := List.getElem_of_mem hc
  rw [List.getElem_eq_getD 0#8]
  exact ((b64EncShape b).2 i hi).1

/-- The bits of a stream before its sentinel. -/
theorem ser_getD_char (T : List Byte) (k : Nat) (hk : k < 8 * T.length) :
    (ser T).getD k false = (T.flatMap bits8).getD k false := by
  rw [ser, List.getD_append _ _ _ _ (by rwa [flatMap_bits8_length])]

/-- The sentinel of a stream. -/
theorem ser_getD_sentinel (T : List Byte) (j : Nat) (hj : j < 16) :
    (ser T).getD (8 * T.length + j) false = decide (j < 15) := by
  rw [List.getD_eq_getElem?_getD, ser_getElem?_sentinel T j hj]
  rfl

/-- A window of 16 bits that starts before the sentinel is not the sentinel: were it, its first 15 bits would be 1, but
five of them stand in the transport string, or the last 0 of the window would be a 1 of the sentinel (R148). -/
theorem not_sentinelAt_of_ser {f : Nat → Bool} {T : List Byte} {L : Nat}
    (hT : ∀ c, c ∈ T → isSym c = true ∨ c = padByte) (hf : ∀ k, k < L → f k = (ser T).getD k false)
    (hL : L < 8 * T.length + 16) : ¬ SentinelAt f L := by
  rintro ⟨h16, hwindow⟩
  have hbit : ∀ j, j < 16 → (ser T).getD (L - 16 + j) false = decide (j < 15) := fun j hj =>
    (hf _ (by omega)).symm.trans (hwindow j hj)
  by_cases hin : L - 16 + 5 ≤ 8 * T.length
  · obtain ⟨j, hj, hzero⟩ := noFiveOnesInTransportBits T hT (L - 16)
    rw [← ser_getD_char T _ (by omega), hbit j (by omega)] at hzero
    exact absurd hzero (by simp only [decide_eq_false_iff_not]; omega)
  · have hlast := hbit 15 (by decide)
    rw [show L - 16 + 15 = 8 * T.length + (L - 16 + 15 - 8 * T.length) by omega,
      ser_getD_sentinel T _ (by omega)] at hlast
    exact absurd hlast (by simp only [decide_eq_decide]; omega)

/-- The sentinel of a stream ends at its last bit. -/
theorem sentinelAt_of_ser {f : Nat → Bool} {T : List Byte}
    (hf : ∀ k, k < 8 * T.length + 16 → f k = (ser T).getD k false) : SentinelAt f (8 * T.length + 16) := by
  refine ⟨by omega, fun j hj => ?_⟩
  rw [Nat.add_sub_cancel, hf _ (by omega), ser_getD_sentinel T j hj]

/-- The first match in a buffer that starts with a stream is at the stream's end (R148). -/
theorem firstMatch_of_ser {f : Nat → Bool} {T : List Byte} {n : Nat}
    (hT : ∀ c, c ∈ T → isSym c = true ∨ c = padByte)
    (hf : ∀ k, k < 8 * T.length + 16 → f k = (ser T).getD k false) (hn : 8 * T.length + 16 ≤ n) :
    FirstMatch f n (8 * T.length + 16) :=
  ⟨hn, sentinelAt_of_ser hf, fun _ hL => not_sentinelAt_of_ser hT (fun k hk => hf k (hk.trans hL)) hL⟩

/-- The characters of the payload are those the stream was made from (R145). -/
theorem charsOf_of_ser {f : Nat → Bool} {T : List Byte}
    (hf : ∀ k, k < 8 * T.length + 16 → f k = (ser T).getD k false) : charsOf f (8 * T.length) = T := by
  rw [charsOf, Nat.mul_div_cancel_left _ (by decide)]
  apply List.ext_getElem (by simp)
  intro i _ hi
  have hbit : ∀ j, j < 8 → f (8 * i + j) = T[i].getLsbD (7 - j) := by
    intro j hj
    rw [hf _ (by omega), List.getD_eq_getElem?_getD, ser_getElem?_char T i j hi hj]
    rfl
  rw [List.getElem_map, List.getElem_range]
  calc charOf f i = byteOfBits (f (8 * i)) (f (8 * i + 1)) (f (8 * i + 2)) (f (8 * i + 3)) (f (8 * i + 4))
        (f (8 * i + 5)) (f (8 * i + 6)) (f (8 * i + 7)) := (byteOfBits_eq ..).symm
    _ = byteOfBits (T[i].getLsbD 7) (T[i].getLsbD 6) (T[i].getLsbD 5) (T[i].getLsbD 4) (T[i].getLsbD 3)
        (T[i].getLsbD 2) (T[i].getLsbD 1) (T[i].getLsbD 0) := by
      rw [show f (8 * i) = T[i].getLsbD 7 from hbit 0 (by decide), hbit 1 (by decide), hbit 2 (by decide),
        hbit 3 (by decide), hbit 4 (by decide), hbit 5 (by decide), hbit 6 (by decide), hbit 7 (by decide)]
    _ = T[i] := byteOfBits_bits _

/-! ### EXTRACT of what EMBED wrote -/

theorem message_getD (s : State) (i : Nat) (hi : i < s.blen.toNat) :
    s.message.getD i 0#8 = s.byteAt .bytes i := by
  simp [State.message, State.prefixOf, List.getElem?_range hi]

/-- The length of the characters EMBED serializes, in bits and with the sentinel. -/
theorem reqBits_eq (s : State) : reqBits s.blen.toNat = 8 * (b64Enc s.message).length + 16 := by
  rw [← ser_length, ser_b64Enc_length, message_length]

/-- A buffer whose carriers hold what EMBED wrote holds the stream. -/
theorem lsb_eq_ser_of_eq_afterEmbed {s u : State} {n : Nat} (hn : n ≤ reqBits s.blen.toNat)
    (hu : ∀ k, k < n → u.lsb k = (afterEmbed s).lsb k) :
    ∀ k, k < n → u.lsb k = (ser (b64Enc s.message)).getD k false :=
  fun k hk => (hu k hk).trans (lsb_afterEmbed (hk.trans_le hn))

/-- Settles O40: the first match is the stream's own sentinel, the payload before it is the encoding, and the codec
gives the message back, which fits BYTES as it did at the EMBED. -/
theorem embedExtractRoundTrip : Obligations.EmbedExtractRoundTrip := by
  intro s t u h he hparams hpix hroom hu
  obtain ⟨_, hbytes, _, rfl⟩ := embed_success h he
  have hser := lsb_eq_ser_of_eq_afterEmbed le_rfl hu
  rw [reqBits_eq] at hroom hser ⊢
  have hmatch := firstMatch_of_ser (fun _ => transport_char_of_mem_b64Enc) hser hroom
  have hchars := charsOf_of_ser hser
  obtain ⟨hvalid, hdec⟩ := b64DecodeInvertsEncode s.message
  obtain ⟨v, hexec, hv, hout, _⟩ := (((extractResult.2 u).2 hpix).2 _ (b64Enc s.message) hmatch
    (by rw [Nat.add_sub_cancel, hchars])).2.2 (by omega) hvalid (by rw [hdec, message_length, hparams]; exact hbytes)
  rw [hdec] at hv hout
  rw [message_length] at hv
  refine ⟨v, hexec, by rw [hv], by rw [hv], by rw [hv], ?_, fun i hi => ?_⟩
  · rw [hv, BitVec.ofNat_toNat, BitVec.setWidth_eq]
  · rw [hout i (by rwa [message_length]), message_getD s i hi]

/-- Settles O41: the bits that are read are the first of the stream but not all, and the sentinel ends at none of them. -/
theorem shortBufferFindsNoSentinel : Obligations.ShortBufferFindsNoSentinel := by
  intro s t u h he _ hpix hshort hu
  obtain ⟨_, _, _, rfl⟩ := embed_success h he
  have hser := lsb_eq_ser_of_eq_afterEmbed hshort.le hu
  rw [reqBits_eq] at hshort
  refine ⟨_, ((extractResult.2 u).2 hpix).1 fun L hL => ?_, rfl, rfl, rfl⟩
  exact not_sentinelAt_of_ser (fun _ => transport_char_of_mem_b64Enc) (fun k hk => hser k (hk.trans_le hL))
    (hL.trans_lt hshort)

/-! ### What the outcome depends on -/

theorem sentinelAt_congr {f g : Nat → Bool} {L : Nat} (h : ∀ k, k < L → f k = g k) :
    SentinelAt f L ↔ SentinelAt g L := by
  refine and_congr_right fun h16 => forall₂_congr fun j hj => ?_
  rw [h _ (by omega)]

theorem firstMatch_congr {f g : Nat → Bool} {n L : Nat} (h : ∀ k, k < n → f k = g k) :
    FirstMatch f n L ↔ FirstMatch g n L := by
  refine and_congr_right fun hL => and_congr (sentinelAt_congr fun k hk => h k (by omega)) ?_
  exact forall₂_congr fun L' hL' => not_congr (sentinelAt_congr fun k hk => h k (by omega))

theorem charsOf_congr {f g : Nat → Bool} {n : Nat} (h : ∀ k, k < n → f k = g k) : charsOf f n = charsOf g n := by
  refine List.map_congr_left fun i hi => ?_
  rw [List.mem_range] at hi
  have hbit : ∀ j, j < 8 → f (8 * i + j) = g (8 * i + j) := fun j hj => h _ (by omega)
  rw [charOf, charOf, show f (8 * i) = g (8 * i) from hbit 0 (by decide), hbit 1 (by decide), hbit 2 (by decide),
    hbit 3 (by decide), hbit 4 (by decide), hbit 5 (by decide), hbit 6 (by decide), hbit 7 (by decide)]

/-- Settles O39: the checks of EXTRACT and the output it writes are those of the bits it scans, so each end of the one
run is the same end of the other. -/
theorem extractDependsOnlyOnLsbs : Obligations.ExtractDependsOnlyOnLsbs := by
  intro s u hparams hpixcnt hlsb
  have hs := extractResult.2 s
  have hu := extractResult.2 u
  rw [← hparams, ← hpixcnt] at hu
  rcases execExtract_cases s with ⟨hlong, _⟩ | ⟨hpix, hnone, _⟩ | ⟨L, hpix, hmatch, hend⟩
  · exact ⟨_, _, hs.1 hlong, hu.1 hlong, rfl, rfl, fun hpix => absurd hlong hpix.not_gt, fun he => by cases he⟩
  · have hnone' : ∀ L, L ≤ 3 * s.pixcnt.toNat → ¬ SentinelAt u.lsb L := fun L hL hsentinel =>
      hnone L hL ((sentinelAt_congr fun k hk => hlsb k (hk.trans_le hL)).mpr hsentinel)
    exact ⟨_, _, (hs.2 hpix).1 hnone, (hu.2 hpix).1 hnone', rfl, rfl, fun _ => rfl, fun he => by cases he⟩
  · have hchars : charsOf s.lsb (L - 16) = charsOf u.lsb (L - 16) := charsOf_congr fun k hk =>
      hlsb k (hk.trans_le ((Nat.sub_le L 16).trans hmatch.1))
    have hs' := (hs.2 hpix).2 L _ hmatch rfl
    have hu' := (hu.2 hpix).2 L _ ((firstMatch_congr hlsb).mp hmatch) hchars
    rcases hend with ⟨hunaligned, _⟩ | ⟨_, hinvalid, _⟩ | ⟨haligned, hvalid, hover, _⟩ | ⟨haligned, hvalid, hfits, _⟩
    · exact ⟨_, _, hs'.1 (.inl hunaligned), hu'.1 (.inl hunaligned), rfl, rfl, fun _ => rfl, fun he => by cases he⟩
    · exact ⟨_, _, hs'.1 (.inr hinvalid), hu'.1 (.inr hinvalid), rfl, rfl, fun _ => rfl, fun he => by cases he⟩
    · exact ⟨_, _, hs'.2.1 haligned hvalid hover, hu'.2.1 haligned hvalid hover, rfl, rfl, fun _ => rfl,
        fun he => by cases he⟩
    · obtain ⟨t, hexec, ht, hout, _⟩ := hs'.2.2 haligned hvalid hfits
      obtain ⟨v, hexec', hv, hout', _⟩ := hu'.2.2 haligned hvalid hfits
      refine ⟨t, v, hexec, hexec', by rw [ht, hv], by rw [ht, hv], fun _ => by rw [ht, hv],
        fun _ => ⟨by rw [ht, hv], fun i hi => ?_⟩⟩
      have hi' : i < (b64Dec (charsOf s.lsb (L - 16))).length := by
        rw [ht, BitVec.toNat_ofNat] at hi
        exact hi.trans_le (Nat.mod_le ..)
      rw [hout i hi', hout' i hi']

/-! ### Outputs that fit -/

/-- A valid string decodes to at most three bytes for each four characters. -/
theorem b64Dec_length_le {t : List Byte} (ht : b64Valid t = true) : (b64Dec t).length ≤ 3 * (t.length / 4) := by
  rw [(b64DecLength t ht).1]
  exact Nat.sub_le ..

theorem charsOf_length (f : Nat → Bool) (n : Nat) : (charsOf f n).length = n / 8 := by
  simp [charsOf]

/-- The decoded payload of any match in a buffer of at most `n` pixels has at most `MAXDEC(n)` bytes (R7). -/
theorem b64Dec_charsOf_length_le {f : Nat → Bool} {n L : Nat} (hL : L ≤ 3 * n)
    (hvalid : b64Valid (charsOf f (L - 16)) = true) : (b64Dec (charsOf f (L - 16))).length ≤ Config.maxDec n := by
  have hdec := b64Dec_length_le hvalid
  rw [charsOf_length] at hdec
  simp only [Config.maxDec, Config.maxCh]
  omega

/-- The encoding of a message that fits BYTES fits TEXT (R6). -/
theorem b64Enc_message_fits {s : State} (hlegal : s.params.Legal) (hbytes : s.blen.toNat ≤ s.params.maxBytes) :
    (b64Enc s.message).length ≤ s.params.maxText := by
  obtain ⟨_, _, hmult, _⟩ := hlegal
  rw [b64Enc_length, message_length, Params.maxText]
  omega

@[simp] theorem textIn_length (s : State) : s.textIn.length = s.tlen.toNat := by
  simp [State.textIn, State.prefixOf]

/-- The decoding of a valid string that fits TEXT fits BYTES (R6). -/
theorem b64Dec_textIn_fits {s : State} (hlegal : s.params.Legal) (htext : s.tlen.toNat ≤ s.params.maxText)
    (hvalid : b64Valid s.textIn = true) : (b64Dec s.textIn).length ≤ s.params.maxBytes := by
  obtain ⟨_, _, hmult, _⟩ := hlegal
  have hdec := b64Dec_length_le hvalid
  rw [textIn_length] at hdec
  rw [Params.maxText] at htext
  omega

/-- Settles O42: of EXTRACT's ends with LENGTH_INVALID one has too many pixels, and the other an output longer than
`MAXDEC` of the build's pixels, which R7 puts at most at `MAX_BYTES`. -/
theorem outputsFitLegalBuild : Obligations.OutputsFitLegalBuild := by
  refine fun s hlegal => ⟨fun t h hpix => ?_, b64Enc_message_fits hlegal, b64Dec_textIn_fits hlegal⟩
  rcases execExtract_cases s with ⟨hlong, _⟩ | ⟨_, _, hexec⟩ | ⟨L, _, hmatch, hend⟩
  · exact absurd hpix hlong.not_ge
  · cases h.symm.trans hexec
    simp
  · rcases hend with ⟨_, hexec⟩ | ⟨_, _, hexec⟩ | ⟨_, hvalid, hover, _⟩ | ⟨_, _, _, hexec⟩
    · cases h.symm.trans hexec
      simp
    · cases h.symm.trans hexec
      simp
    · obtain ⟨_, _, _, _, _, hmaxdec⟩ := hlegal
      have hL : L ≤ 3 * s.params.maxPixels := hmatch.1.trans (Nat.mul_le_mul_left 3 hpix)
      exact absurd hover ((b64Dec_charsOf_length_le hL hvalid).trans hmaxdec).not_gt
    · cases h.symm.trans hexec
      simp

end Sys2Proof.Proofs
end

section
/-! Every command at once (30_encoding.md R74, 60_exceptions.md R200, R204): how it completes, with which codes, and
what it leaves unchanged. -/

namespace Sys2Proof.Proofs

open Sys2Proof Sys2Proof.Machine Sys2Proof.Laws

/-- Settles O6: the law that says once what a command may do, read field by field. -/
theorem everyCommandFinishes : Obligations.EveryCommandFinishes := by
  intro i s
  obtain ⟨t, e, x, hexec, rfl, hstatus, ht⟩ := exec_cases i s
  refine ⟨t, hexec, ?_⟩
  rw [hstatus, ht]
  exact ⟨rfl, rfl, rfl, rfl, rfl, rfl, rfl, rfl, rfl, rfl, rfl, rfl⟩

/-! ### What each command may write (R74) -/

theorem exec_nop_writes {s t : State} (h : exec .nop s = .next t) : t = s.finish .none := by
  cases h
  rfl

/-- EMBED writes BITS and PIX beside the completion. -/
theorem exec_embed_writes {s t : State} (h : exec .embed s = .next t) :
    (t.errcode = .none ∨ t.errcode = .capacityExceeded ∨ t.errcode = .lengthInvalid) ∧
    (t.errcode ≠ .none → t.pix = s.pix) ∧
    t = { s with status := s.status.finish t.errcode, errcode := t.errcode, bits := t.bits, pix := t.pix } := by
  rcases execEmbed_cases s with ⟨_, hexec⟩ | ⟨_, _, _, hexec⟩ | ⟨_, _, _, hexec⟩ <;> cases h.symm.trans hexec
  · exact ⟨.inr (.inr rfl), fun _ => rfl, rfl⟩
  · exact ⟨.inr (.inl rfl), fun _ => rfl, rfl⟩
  · exact ⟨.inl rfl, fun he => absurd rfl he, rfl⟩

/-- EXTRACT writes XSTATE, BITS, BLEN and BYTES beside the completion. -/
theorem exec_extract_writes {s t : State} (h : exec .extract s = .next t) :
    (t.errcode = .none ∨ t.errcode = .sentinelNotFound ∨ t.errcode = .malformedPayload ∨
      t.errcode = .lengthInvalid) ∧
    (t.errcode ≠ .none → t.bytes = s.bytes ∧ t.blen = s.blen) ∧
    t = { s with
      status := { s.status.finish t.errcode with xstate := t.status.xstate }, errcode := t.errcode, bits := t.bits,
      blen := t.blen, bytes := t.bytes } := by
  rcases execExtract_cases s with ⟨_, hexec⟩ | ⟨_, _, hexec⟩ |
    ⟨L, _, _, ⟨_, hexec⟩ | ⟨_, _, hexec⟩ | ⟨_, _, _, hexec⟩ | ⟨_, _, _, hexec⟩⟩ <;> cases h.symm.trans hexec
  · exact ⟨.inr (.inr (.inr rfl)), fun _ => ⟨rfl, rfl⟩, rfl⟩
  · exact ⟨.inr (.inl rfl), fun _ => ⟨rfl, rfl⟩, rfl⟩
  · exact ⟨.inr (.inr (.inl rfl)), fun _ => ⟨rfl, rfl⟩, rfl⟩
  · exact ⟨.inr (.inr (.inl rfl)), fun _ => ⟨rfl, rfl⟩, rfl⟩
  · exact ⟨.inr (.inr (.inr rfl)), fun _ => ⟨rfl, rfl⟩, rfl⟩
  · exact ⟨.inl rfl, fun he => absurd rfl he, rfl⟩

/-- TENC writes TLEN and TEXT beside the completion. -/
theorem exec_tenc_writes {s t : State} (h : exec .tenc s = .next t) :
    (t.errcode = .none ∨ t.errcode = .lengthInvalid) ∧
    (t.errcode ≠ .none → t.text = s.text ∧ t.tlen = s.tlen) ∧
    t = { s with status := s.status.finish t.errcode, errcode := t.errcode, tlen := t.tlen, text := t.text } := by
  rcases execTenc_cases s with ⟨_, hexec⟩ | ⟨_, hexec⟩ <;> cases h.symm.trans hexec
  · exact ⟨.inr rfl, fun _ => ⟨rfl, rfl⟩, rfl⟩
  · exact ⟨.inl rfl, fun he => absurd rfl he, rfl⟩

/-- TDEC writes BLEN and BYTES beside the completion. -/
theorem exec_tdec_writes {s t : State} (h : exec .tdec s = .next t) :
    (t.errcode = .none ∨ t.errcode = .malformedPayload ∨ t.errcode = .lengthInvalid) ∧
    (t.errcode ≠ .none → t.bytes = s.bytes ∧ t.blen = s.blen) ∧
    t = { s with status := s.status.finish t.errcode, errcode := t.errcode, blen := t.blen, bytes := t.bytes } := by
  rcases execTdec_cases s with ⟨_, hexec⟩ | ⟨_, _, hexec⟩ | ⟨_, _, hexec⟩ <;> cases h.symm.trans hexec
  · exact ⟨.inr (.inr rfl), fun _ => ⟨rfl, rfl⟩, rfl⟩
  · exact ⟨.inr (.inl rfl), fun _ => ⟨rfl, rfl⟩, rfl⟩
  · exact ⟨.inl rfl, fun he => absurd rfl he, rfl⟩

/-- Settles O7: the codes of each command's ends. -/
theorem completionCodes : Obligations.CompletionCodes := by
  intro i s t h
  refine ⟨?_, ?_, ?_, ?_, ?_⟩ <;> rintro rfl
  · rw [exec_nop_writes h]; rfl
  · exact (exec_embed_writes h).1
  · exact (exec_extract_writes h).1
  · exact (exec_tenc_writes h).1
  · exact (exec_tdec_writes h).1

/-- Settles O8: a command writes its own outputs only where it ends with NONE, and no other's. -/
theorem errorsLeaveOutputsUnchanged : Obligations.ErrorsLeaveOutputsUnchanged := by
  intro i s t h he
  cases i with
  | nop => rw [exec_nop_writes h]; exact ⟨rfl, rfl, rfl, rfl, rfl⟩
  | embed =>
    obtain ⟨_, hpix, ht⟩ := exec_embed_writes h
    rw [ht, hpix he]; exact ⟨rfl, rfl, rfl, rfl, rfl⟩
  | extract =>
    obtain ⟨_, hout, ht⟩ := exec_extract_writes h
    rw [ht, (hout he).1, (hout he).2]; exact ⟨rfl, rfl, rfl, rfl, rfl⟩
  | tenc =>
    obtain ⟨_, hout, ht⟩ := exec_tenc_writes h
    rw [ht, (hout he).1, (hout he).2]; exact ⟨rfl, rfl, rfl, rfl, rfl⟩
  | tdec =>
    obtain ⟨_, hout, ht⟩ := exec_tdec_writes h
    rw [ht, (hout he).1, (hout he).2]; exact ⟨rfl, rfl, rfl, rfl, rfl⟩

/-- Settles O9: each column of the table of outputs, command by command. -/
theorem commandsWriteOnlyTheirOutputs : Obligations.CommandsWriteOnlyTheirOutputs := by
  intro i s t h
  cases i with
  | nop =>
    rw [exec_nop_writes h]
    exact ⟨fun _ _ => rfl, fun _ _ => ⟨rfl, fun _ => rfl⟩, fun _ => ⟨rfl, fun _ => rfl⟩, fun _ _ => rfl, fun _ => rfl,
      rfl⟩
  | embed =>
    rw [(exec_embed_writes h).2.2]
    exact ⟨fun hi => absurd rfl hi, fun _ _ => ⟨rfl, fun _ => rfl⟩, fun _ => ⟨rfl, fun _ => rfl⟩,
      fun hi => absurd rfl hi, fun _ => rfl, rfl⟩
  | extract =>
    rw [(exec_extract_writes h).2.2]
    exact ⟨fun _ _ => rfl, fun hi => absurd rfl hi, fun _ => ⟨rfl, fun _ => rfl⟩, fun _ hi => absurd rfl hi,
      fun hi => absurd rfl hi, rfl⟩
  | tenc =>
    rw [(exec_tenc_writes h).2.2]
    exact ⟨fun _ _ => rfl, fun _ _ => ⟨rfl, fun _ => rfl⟩, fun hi => absurd rfl hi, fun _ _ => rfl, fun _ => rfl, rfl⟩
  | tdec =>
    rw [(exec_tdec_writes h).2.2]
    exact ⟨fun _ _ => rfl, fun _ hi => absurd rfl hi, fun _ => ⟨rfl, fun _ => rfl⟩, fun _ _ => rfl, fun _ => rfl, rfl⟩

/-! ### PIX -/

/-- A byte of PIX that a command changes is a carrier of the buffer (20_memory.md R58, 41_embedder.md R123). -/
theorem exec_pix_frame {i : Instr} {s t : State} {a : Nat} (h : exec i s = .next t)
    (ha : ∀ k, k < s.carriers → a ≠ carrierIndex k) : t.byteAt .pix a = s.byteAt .pix a := by
  by_cases hi : i = .embed
  · subst hi
    by_cases he : t.errcode = .none
    · obtain ⟨_, _, hroom, rfl⟩ := embed_success h he
      exact byteAt_afterEmbed_frame fun _ k hk => ha k (hk.trans_le hroom)
    · obtain ⟨_, hpix, ht⟩ := exec_embed_writes h
      exact byteAt_congr s t .pix a (by rw [ht]) (hpix he)
  · exact (commandsWriteOnlyTheirOutputs i s t h).1 hi a

/-- Settles O10: an alpha channel is no carrier, and a carrier of the buffer lies below PIXCNT. -/
theorem alphaAndOutsidePixelsUntouched : Obligations.AlphaAndOutsidePixelsUntouched := by
  intro i s t p h
  refine ⟨exec_pix_frame h fun k _ => (carrierIndex_ne_alpha k p).symm, fun hp c _ => ?_⟩
  refine exec_pix_frame h fun k hk => ?_
  have hlt := carrierIndex_lt hk
  omega

end Sys2Proof.Proofs
end

section
/-! Encodings (30_encoding.md): the illegal words (R72), the words STATUS and ERRCODE read as (10_state.md R24 to R26),
and the pseudo-instructions (R81, R82). -/

namespace Sys2Proof.Proofs

open Sys2Proof Sys2Proof.Machine Sys2Proof.Laws

/-! ### Command words -/

/-- Settles O11: the five words by the decoder's law, the two neighbours by their fields. -/
theorem tableWordsDecode : Obligations.TableWordsDecode :=
  ⟨(decode_eq_ok_iff _ _).mpr rfl, (decode_eq_ok_iff _ _).mpr rfl, (decode_eq_ok_iff _ _).mpr rfl,
    (decode_eq_ok_iff _ _).mpr rfl, (decode_eq_ok_iff _ _).mpr rfl, rfl, rfl⟩

/-- RSV as a number (R70). -/
theorem rsvField_eq_ofNat (w : Word) : rsvField w = BitVec.ofNat 28 (w.toNat / 16) := by
  rw [rsvField, BitVec.extractLsb', Nat.shiftRight_eq_div_pow]

/-- OP as a number (R70). -/
theorem opField_eq_ofNat (w : Word) : opField w = BitVec.ofNat 4 w.toNat := rfl

/-- The opcodes from 5 up are reserved (R72). -/
theorem decodeOp_of_five_le : ∀ op : BitVec 4, 5 ≤ op.toNat → decodeOp op = .error (.reservedOpcode op) := by
  decide

/-- Settles O13: RSV is 0 exactly below 16, and there OP is the word itself. -/
theorem illegalWordsRejectedByName : Obligations.IllegalWordsRejectedByName := by
  intro w
  have hlt := w.isLt
  constructor
  · intro hw
    have hrsv : rsvField w ≠ 0#28 := by
      rw [rsvField_eq_ofNat, ne_eq, ← BitVec.toNat_inj, BitVec.toNat_ofNat]
      simp only [BitVec.toNat_zero]
      omega
    rw [decode, if_neg hrsv, rsvField_eq_ofNat]
  · intro h5 h16
    have hrsv : rsvField w = 0#28 := by rw [rsvField_eq_ofNat, Nat.div_eq_of_lt h16]
    rw [decode, if_pos hrsv, opField_eq_ofNat]
    exact decodeOp_of_five_le _ (by rwa [BitVec.toNat_ofNat, Nat.mod_eq_of_lt h16])

/-! ### The words of STATUS and ERRCODE -/

/-- Settles O23, for each value of XSTATE: the four flags are Booleans. -/
theorem statusWordLayout : Obligations.StatusWordLayout := by
  rintro ⟨busy, done, err, busywr, xstate⟩
  cases xstate <;> revert busy done err busywr <;> decide

/-- Settles O53, code by code. -/
theorem errcodeWordLayout : Obligations.ErrcodeWordLayout := by
  intro e
  cases e <;> rfl

/-! ### The pseudo-instructions -/

@[simp] theorem writeWords_length (b : Bank) (i : Nat) (vs : List Word) : (writeWords b i vs).length = vs.length := by
  induction vs generalizing i with
  | nil => rfl
  | cons v vs ih => simp only [writeWords, List.length_cons, ih]

/-- The `j`-th write of a list of words is to the `j`-th word of the window from byte `i` on. -/
theorem writeWords_getElem? (b : Bank) (i : Nat) (vs : List Word) (j : Nat) :
    (writeWords b i vs)[j]? = vs[j]?.map (writeOp (windowOffset b (i + 4 * j))) := by
  induction vs generalizing i j with
  | nil => rfl
  | cons v vs ih =>
    cases j with
    | zero => rfl
    | succ j =>
      rw [writeWords, List.getElem?_cons_succ, List.getElem?_cons_succ, ih,
        show i + 4 + 4 * j = i + 4 * (j + 1) by omega]

theorem wordsOf_length (bs : List Byte) : (wordsOf bs).length = (bs.length + 3) / 4 := by
  induction bs using wordsOf.induct with
  | case1 => rfl
  | case2 b0 => simp [wordsOf]
  | case3 b0 b1 => simp [wordsOf]
  | case4 b0 b1 b2 => simp [wordsOf]
  | case5 b0 b1 b2 b3 rest ih =>
    simp only [wordsOf, List.length_cons, ih]
    omega

/-- The first word holds the first four bytes, 0x00 past the last (R81). -/
theorem wordsOf_eq_cons {bs : List Byte} (h : 0 < bs.length) :
    wordsOf bs =
      bytesWord (bs.getD 0 0#8) (bs.getD 1 0#8) (bs.getD 2 0#8) (bs.getD 3 0#8) :: wordsOf (bs.drop 4) := by
  match bs, h with
  | [_], _ => rfl
  | [_, _], _ => rfl
  | [_, _, _], _ => rfl
  | _ :: _ :: _ :: _ :: _, _ => rfl

/-- The bytes of the `j`-th word are the four bytes from `4j` on, 0x00 past the last (R81). -/
theorem wordsOf_getElem? (bs : List Byte) (j : Nat) (hj : 4 * j < bs.length) :
    ∃ v, (wordsOf bs)[j]? = some v ∧ ∀ m, m < 4 → wordByte v m = bs.getD (4 * j + m) 0#8 := by
  induction j generalizing bs with
  | zero =>
    rw [wordsOf_eq_cons hj]
    refine ⟨_, rfl, fun m hm => ?_⟩
    rw [Nat.mul_zero, Nat.zero_add]
    exact wordByte_bytesWord_apply (fun m => bs.getD m 0#8) m hm
  | succ j ih =>
    obtain ⟨v, hv, hbytes⟩ := ih (bs.drop 4) (by rw [List.length_drop]; omega)
    rw [wordsOf_eq_cons (by omega)]
    refine ⟨v, hv, fun m hm => ?_⟩
    rw [hbytes m hm, List.getD_eq_getElem?_getD, List.getElem?_drop, ← List.getD_eq_getElem?_getD,
      show 4 + (4 * j + m) = 4 * (j + 1) + m by omega]

/-- The `j`-th write of a list of bytes is one word of the window with the four bytes in it. -/
theorem writeWords_wordsOf_getElem? (b : Bank) (i : Nat) {bs : List Byte} {j : Nat} {v : Word}
    (hv : (wordsOf bs)[j]? = some v) :
    (writeWords b i (wordsOf bs))[j]? =
      some (.request { kind := .wr, offset := BitVec.ofNat 25 (windowBase b + i + 4 * j), wdata := v }) := by
  rw [writeWords_getElem?, hv, Nat.add_assoc]
  rfl

/-- A run of writes of one word to rising pixels is one `WP` for each pixel. -/
theorem wpn_getElem? (p n j : Nat) (v : Word) (hj : j < n) :
    (HostLine.wpn p n v).expand[j]? = (HostLine.wp (p + j) v).expand[0]? := by
  simp only [HostLine.expand, writeWords_getElem?, List.getElem?_replicate, if_pos hj, Nat.mul_add]
  rfl

/-- Settles O16: the lines of one transaction by their definition, the runs of writes word by word. -/
theorem pseudoInstructionExpansion : Obligations.PseudoInstructionExpansion := by
  refine ⟨fun _ => rfl, fun _ => rfl, ⟨rfl, rfl, fun _ => rfl⟩, fun _ _ _ => rfl, fun p n v _ => ⟨?_, ?_⟩, ?_,
    fun _ _ _ => rfl, fun _ _ _ => rfl, fun _ _ => rfl⟩
  · rw [HostLine.expand, writeWords_length, List.length_replicate]
  · exact fun j hj => wpn_getElem? p n j v hj
  · intro i bs _ _
    refine ⟨(writeWords_length ..).trans (wordsOf_length bs), (writeWords_length ..).trans (wordsOf_length bs),
      fun j hj => ?_⟩
    obtain ⟨v, hv, hbytes⟩ := wordsOf_getElem? bs j hj
    exact ⟨v, hbytes, writeWords_wordsOf_getElem? .bytes i hv, writeWords_wordsOf_getElem? .text i hv⟩

end Sys2Proof.Proofs
end

section
/-! The HOST's transactions while idle and while busy (43_control.md R163 to R165), and the HOST's turn (20_memory.md
R60, 30_encoding.md R81). -/

namespace Sys2Proof.Proofs

open Sys2Proof Sys2Proof.Machine Sys2Proof.Laws

/-! ### Idle -/

/-- A read of an offset that names a target answers its stored value while idle (R163). -/
theorem hostRead_idle {s : State} {o : Offset} {t : Target} (ht : decodeOffset s.params o = some t)
    (hb : s.status.busy = false) : hostRead s o = (okData (s.stored t), s) := by
  simp [hostRead, ht, hb]

/-- Settles O19: each offset by the address map, and a memory word by its four bytes. -/
theorem hostReadIdle : Obligations.HostReadIdle := by
  intro s hb
  have reg := fun r => hostRead_idle (decodeOffset_regOffset s.params r) hb
  refine ⟨reg .cmd, reg .status, reg .errcode, reg .pixcnt, reg .blen, reg .tlen, reg .bits, fun b w hlegal hw => ?_⟩
  exact ⟨s.readWord b w, hostRead_idle (decodeOffset_windowOffset _ b w hlegal hw) hb, wordByte_readWord s b w⟩

/-- A word write changes nothing but memories. -/
theorem writeWord_frame (s : State) (b : Bank) (w : Nat) (v : Word) :
    s.writeWord b w v =
      { s with
        pix := (s.writeWord b w v).pix, bytes := (s.writeWord b w v).bytes, text := (s.writeWord b w v).text } := by
  cases b <;> rfl

/-- Settles O20: each offset by the address map, and a memory word by the laws of `writeWord`. -/
theorem hostWriteIdle : Obligations.HostWriteIdle := by
  intro s v hb
  have reg := fun r => hostWrite_idle v (decodeOffset_regOffset s.params r) hb
  refine ⟨reg .status, reg .errcode, reg .bits, reg .pixcnt, reg .blen, reg .tlen, fun b w hlegal hw => ?_⟩
  refine ⟨s.writeWord b w v, hostWrite_idle v (decodeOffset_windowOffset _ b w hlegal hw) hb, writeWord_frame s b w v,
    fun j hj => ?_, fun b' a h => byteAt_writeWord_outside s b b' w a v h⟩
  rw [byteAt_writeWord_inside s b w (4 * w + j) v (by omega) (by omega), show (4 * w + j) % 4 = j by omega]

/-! ### Busy -/

/-- The pending command is `i` exactly when the pending word is its word (R71). -/
theorem pendingInstr_eq_some_iff {s : State} {w : Word} (hw : s.pending = some w) (i : Instr) :
    s.pendingInstr = some i ↔ w = encode i := by
  rw [pendingInstr_of_pending s w hw, ← decode_eq_ok_iff]
  cases decode w <;> simp

/-- The model's WSET is that of R165 item 2, by the pending word. -/
theorem inWset_iff {s : State} {w : Word} (hw : s.pending = some w) (t : Target) :
    inWset s.pendingInstr t = true ↔ InWset w t := by
  have hembed : s.pendingInstr = some .embed ↔ w = 1#32 := pendingInstr_eq_some_iff hw .embed
  have hextract : s.pendingInstr = some .extract ↔ w = 2#32 := pendingInstr_eq_some_iff hw .extract
  have htenc : s.pendingInstr = some .tenc ↔ w = 3#32 := pendingInstr_eq_some_iff hw .tenc
  have htdec : s.pendingInstr = some .tdec ↔ w = 4#32 := pendingInstr_eq_some_iff hw .tdec
  cases t with
  | reg r => cases r <;> simp [inWset, InWset, hembed, hextract, htenc, htdec]
  | word b n => cases b <;> simp [inWset, InWset, hembed, hextract, htenc, htdec]

/-- A read of an offset that names a target, while busy (R165 items 2 to 4). -/
theorem hostRead_busy {s : State} {o : Offset} {t : Target} (ht : decodeOffset s.params o = some t)
    (hb : s.status.busy = true) : hostRead s o = busyRead s t := by
  simp [hostRead, ht, hb]

/-- The word STATUS reads as while busy (R165 item 3). -/
theorem busyStatus_word (busywr : Bool) (x : XState) :
    ({ busy := true, done := false, err := false, busywr := busywr, xstate := x } : Status).word =
      BitVec.ofNat 32 (1 + 8 * busywr.toNat + 16 * x.code.toNat) := by
  cases busywr <;> cases x <;> rfl

/-- A drawn XSTATE is one of the values 1 to 6 (R165 item 3). -/
theorem drawn_code_bounds (n : Nat) : 1 ≤ (XState.drawn n).code.toNat ∧ (XState.drawn n).code.toNat ≤ 6 := by
  simp only [XState.drawn]
  split <;> decide

theorem busyStatusRead_of_ne_extract {s : State} (h : s.pendingInstr ≠ some .extract) :
    busyStatusRead s = (okData (BitVec.ofNat 32 (1 + 8 * s.status.busywr.toNat)), s) := by
  simp only [busyStatusRead, if_neg h, busyStatus_word]
  rfl

theorem busyStatusRead_of_extract {s : State} (h : s.pendingInstr = some .extract) :
    busyStatusRead s =
      (okData (BitVec.ofNat 32 (1 + 8 * s.status.busywr.toNat + 16 * (XState.drawn s.draws).code.toNat)), s.drawn) := by
  simp only [busyStatusRead, if_pos h, busyStatus_word]

/-- STATUS is in no WSET, so a busy read of it is item 3 of R165. -/
theorem busyRead_status (s : State) : busyRead s (.reg .status) = busyStatusRead s := by
  simp [busyRead, inWset]

/-- Settles O21: the four items of R165, each by its condition in `busyRead`. -/
theorem accessWhileBusy : Obligations.AccessWhileBusy := by
  intro s w t o hb hw ht
  have hread := hostRead_busy ht hb
  have hwset := inWset_iff hw t
  have hextract : s.pendingInstr = some .extract ↔ w = 2#32 := pendingInstr_eq_some_iff hw .extract
  refine ⟨fun v => hostWrite_busy v ht hb, fun hin => ?_, ?_, ?_, fun hout hstatus => ?_⟩
  · rw [hread, busyRead, if_pos (hwset.mpr hin)]
    rfl
  · rintro rfl hne
    rw [hread, busyRead_status, busyStatusRead_of_ne_extract (mt hextract.mp hne)]
    rfl
  · rintro rfl heq
    obtain ⟨hlow, hhigh⟩ := drawn_code_bounds s.draws
    refine ⟨_, hlow, hhigh, ?_⟩
    rw [hread, busyRead_status, busyStatusRead_of_extract (hextract.mpr heq)]
    rfl
  · rw [hread, busyRead, if_neg (mt hwset.mp hout), if_neg hstatus]
    rfl

/-- An idle read changes nothing. -/
theorem hostRead_idle_state {s : State} (o : Offset) (hb : s.status.busy = false) : (hostRead s o).2 = s := by
  cases ht : decodeOffset s.params o with
  | none => rw [hostRead_of_none ht]
  | some t => rw [hostRead_idle ht hb]

/-- Settles O22: a read leaves the state alone or counts one draw, and while idle it does not draw. -/
theorem readHasNoSideEffect : Obligations.ReadHasNoSideEffect := by
  intro s o
  refine ⟨?_, hostRead_idle_state o⟩
  rcases hostRead_state s o with h | h
  · exact ⟨s.draws, h⟩
  · exact ⟨s.draws + 1, h⟩

/-! ### The HOST's turn -/

/-- Settles O24: the HOST's turn is the transaction and the delivery of its answer, and a transaction does not touch
the responses received before. -/
theorem hostTurnPerformsOneTransaction : Obligations.HostTurnPerformsOneTransaction := by
  intro s r rest ts hturn hhost
  obtain ⟨_, _, _, _, hresponses⟩ := transact_outside (s.withTurns ts) r
  rw [step_hostTurn s ts hturn, hostTurn_request (s.withTurns ts) r rest hhost, deliver, hresponses,
    withTurns_responses]

/-- BUSY is bit 0 of STATUS (10_state.md R24). -/
theorem status_word_getLsbD_zero (st : Status) : st.word.getLsbD 0 = st.busy := by
  obtain ⟨busy, done, err, busywr, xstate⟩ := st
  simp [Status.word, bitWord]

/-- A read of STATUS is answered OK with BUSY as bit 0, idle or busy. -/
theorem hostRead_status (s : State) :
    ∃ v, (hostRead s statusOffset).1 = okData v ∧ v.getLsbD 0 = s.status.busy := by
  have ht : decodeOffset s.params statusOffset = some (.reg .status) := decodeOffset_regOffset s.params .status
  cases hb : s.status.busy with
  | false => exact ⟨_, congrArg Prod.fst (hostRead_idle ht hb), (status_word_getLsbD_zero _).trans hb⟩
  | true =>
    rw [hostRead_busy ht hb, busyRead_status]
    simp only [busyStatusRead]
    split
    · exact ⟨_, rfl, status_word_getLsbD_zero _⟩
    · exact ⟨_, rfl, status_word_getLsbD_zero _⟩

/-- Settles O25: the WAIT's read of STATUS, and the branch on its bit 0. -/
theorem waitRepeatsWhileBusy : Obligations.WaitRepeatsWhileBusy := by
  intro s rest ts hturn hhost
  obtain ⟨v, hresponse, hbit⟩ := hostRead_status (s.withTurns ts)
  obtain ⟨n, hstate⟩ := (readHasNoSideEffect (s.withTurns ts) statusOffset).1
  refine ⟨_, v, by rw [step_hostTurn s ts hturn, hostTurn_wait (s.withTurns ts) rest hhost], ?_⟩
  rw [hstate, hresponse]
  refine ⟨rfl, hbit, ?_, rfl, rfl⟩
  simp only [deliver_host, okData, hbit, withTurns_status]

end Sys2Proof.Proofs
end

section
/-! One step of the whole machine: the ENGINE's turn (43_control.md R166), the HOST's turn (20_memory.md R60) and the
reset (70_reset_and_hazards.md R230), and what each can change. -/

namespace Sys2Proof.Proofs

open Sys2Proof Sys2Proof.Machine Sys2Proof.Laws

/-! ### The ENGINE's turn and the reset -/

theorem runCommand_of_decode_ok {w : Word} {i : Instr} {s : State} (h : decode w = .ok i) :
    runCommand w s = exec i s := by
  simp only [runCommand, h]

/-- Settles O4: the ENGINE's turn by BUSY, and the command part by what the pending word decodes to. -/
theorem stepRunsDecodedCommand : Obligations.StepRunsDecodedCommand := by
  intro s ts hturn
  rw [step_engineTurn s ts hturn]
  refine ⟨engineTurn_idle (s.withTurns ts), fun w hb hw => ?_⟩
  rw [engineTurn_pending (s.withTurns ts) w hb hw]
  constructor
  · intro i hi
    obtain ⟨u, hu, _⟩ := everyCommandFinishes i (s.withTurns ts)
    rw [runCommand_of_decode_ok hi, hu]
    rfl
  · intro hillegal
    rcases runCommand_cases w (s.withTurns ts) with ⟨i, hi, _⟩ | ⟨e, _, hrun⟩
    · exact absurd hi (hillegal i)
    · rw [hrun]
      rfl

theorem status_reset_word : Status.reset.word = 0#32 := rfl

/-- Settles O43: every field of the reset state by its definition; no byte is written yet. -/
theorem resetValues : Obligations.ResetValues :=
  ⟨status_reset_word, rfl, rfl, rfl, rfl, rfl, rfl, rfl, fun b _ => by cases b <;> rfl⟩

/-- A reset leaves every memory byte at a free value of the new count of resets (R232). -/
theorem byteAt_resetBlock (s : State) (b : Bank) (a : Nat) :
    (resetBlock s).byteAt b a = Config.resetByte (s.resets + 1) b a := by
  cases b <;> rfl

/-- Settles O44: the turn is the reset of the block, read field by field. -/
theorem resetTurn : Obligations.ResetTurn := by
  intro s ts h
  exact ⟨_, step_reset s ts h, status_reset_word, rfl, rfl, rfl, rfl, rfl, rfl, byteAt_resetBlock _, rfl, rfl, rfl, rfl,
    rfl⟩

/-! ### What a step can do -/

/-- A run command is one of the five or an illegal word's completion. -/
theorem runCommand_next_cases {w : Word} {s t : State} (h : runCommand w s = .next t) :
    (∃ i, exec i s = .next t) ∨ t = s.finish .illegalCommand := by
  rcases runCommand_cases w s with ⟨i, _, hrun⟩ | ⟨_, _, hrun⟩
  · exact .inl ⟨i, hrun ▸ h⟩
  · cases h.symm.trans hrun
    exact .inr rfl

/-- Every run command answers a next state. -/
theorem exists_runCommand_next (w : Word) (s : State) : ∃ t, runCommand w s = .next t := by
  rcases runCommand_cases w s with ⟨i, _, hrun⟩ | ⟨_, _, hrun⟩
  · obtain ⟨t, hexec, _⟩ := everyCommandFinishes i s
    exact ⟨t, hrun.trans hexec⟩
  · exact ⟨_, hrun⟩

/-- What every run command leaves: a completion, and nothing changed outside the block (00_scope.md R12). -/
theorem runCommand_completes {w : Word} {s t : State} (h : runCommand w s = .next t) :
    t.status.busy = false ∧ t.status.done = true ∧ t.status.err = decide (t.errcode ≠ .none) ∧
    t.status.busywr = s.status.busywr ∧ t.params = s.params ∧ t.resets = s.resets ∧ t.host = s.host ∧
    t.turns = s.turns := by
  rcases runCommand_next_cases h with ⟨i, hexec⟩ | rfl
  · obtain ⟨u, hu, hbusy, hdone, herr, hbusywr, _, _, hparams, hresets, _, hhost, hturns, _⟩ := everyCommandFinishes i s
    cases hexec.symm.trans hu
    exact ⟨hbusy, hdone, herr, hbusywr, hparams, hresets, hhost, hturns⟩
  · exact ⟨rfl, rfl, rfl, rfl, rfl, rfl, rfl, rfl⟩

/-- The ENGINE's turn does nothing, while idle or without a pending word, or completes the pending command (R166). -/
theorem engineTurn_outcome (s : State) :
    ((s.status.busy = false ∨ s.pending = none) ∧ engineTurn s = .next s) ∨
    (s.status.busy = true ∧ ∃ w u, s.pending = some w ∧ runCommand w s = .next u ∧
      engineTurn s = .next (retire u)) := by
  cases hb : s.status.busy with
  | false => exact .inl ⟨.inl rfl, engineTurn_idle s hb⟩
  | true =>
    cases hp : s.pending with
    | none => exact .inl ⟨.inr rfl, by simp [engineTurn, hb, hp]⟩
    | some w =>
      obtain ⟨u, hu⟩ := exists_runCommand_next w s
      exact .inr ⟨rfl, w, u, rfl, hu, by rw [engineTurn_pending s w hb hp, hu]; rfl⟩

/-- Settles O5: a HOST's turn and a reset answer a next state by definition, the ENGINE's because every command does. -/
theorem stepAlwaysAnswersNext : Obligations.StepAlwaysAnswersNext := by
  intro s
  obtain ⟨ts, ⟨hstep, _⟩ | hstep | ⟨hstep, _⟩⟩ := step_cases s
  · exact ⟨_, hstep⟩
  · rcases engineTurn_outcome (s.withTurns ts) with ⟨_, h⟩ | ⟨_, _, _, _, _, h⟩
    · exact ⟨_, hstep.trans h⟩
    · exact ⟨_, hstep.trans h⟩
  · exact ⟨_, hstep⟩

/-- What one step can be, of the state with its turn used up: the HOST's turn, an ENGINE's turn without anything to do,
the completion of the pending command, or a reset. -/
theorem step_next_cases {s t : State} (h : step s = .next t) : ∃ ts,
    t = hostTurn (s.withTurns ts) ∨
    t = s.withTurns ts ∨
    (s.status.busy = true ∧ ∃ w u, s.pending = some w ∧ runCommand w (s.withTurns ts) = .next u ∧ t = retire u) ∨
    t = resetBlock (s.withTurns ts) := by
  obtain ⟨ts, ⟨hstep, _⟩ | hstep | ⟨hstep, _⟩⟩ := step_cases s
  · cases h.symm.trans hstep
    exact ⟨ts, .inl rfl⟩
  · rcases engineTurn_outcome (s.withTurns ts) with ⟨_, hidle⟩ | ⟨hb, w, u, hw, hrun, hend⟩
    · cases h.symm.trans (hstep.trans hidle)
      exact ⟨ts, .inr (.inl rfl)⟩
    · cases h.symm.trans (hstep.trans hend)
      exact ⟨ts, .inr (.inr (.inl ⟨hb, w, u, hw, hrun, rfl⟩))⟩
  · cases h.symm.trans hstep
    exact ⟨ts, .inr (.inr (.inr rfl))⟩

/-! ### What a HOST's turn can do -/

/-- The state a HOST operation leaves before its answer is delivered: as it was, with a draw counted, a write lost while
busy, or an idle write to the target its offset names (R163 to R165). -/
inductive HostEffect (s : State) (op : HostOp) : State → Prop
  | kept : HostEffect s op s
  | drawn : HostEffect s op s.drawn
  | lost (r : Request) (hop : op = .request r) (hwr : r.kind = .wr) (hb : s.status.busy = true) :
      HostEffect s op (lostWrite s)
  | written (r : Request) (x : Target) (hop : op = .request r) (hwr : r.kind = .wr) (hb : s.status.busy = false)
      (hx : decodeOffset s.params r.offset = some x) : HostEffect s op (idleWrite s x r.wdata)

theorem hostEffect_of_read (s : State) (op : HostOp) (o : Offset) : HostEffect s op (hostRead s o).2 := by
  rcases hostRead_state s o with h | h
  · rw [h]; exact .kept
  · rw [h]; exact .drawn

theorem hostEffect_transact (s : State) (op : HostOp) : HostEffect s op (transact s op.toRequest).2 := by
  match op with
  | .wait => exact hostEffect_of_read s _ _
  | .request { kind := .rd, offset := o, wdata := v } => exact hostEffect_of_read s _ _
  | .request { kind := .wr, offset := o, wdata := v } =>
    rw [HostOp.toRequest, transact_wr]
    rcases hostWrite_cases s o v with ⟨_, h⟩ | ⟨x, hx, hb, h⟩ | ⟨x, hx, hb, h⟩
    · rw [h]; exact .kept
    · rw [h]; exact .lost _ rfl rfl hb
    · rw [h]; exact .written _ x rfl rfl hb hx

/-- A HOST's turn does nothing, or is one operation's effect and the delivery of an answer. -/
theorem hostTurn_cases (s : State) :
    hostTurn s = s ∨
    ∃ op rest l rsp u, s.host = op :: rest ∧ (∀ r, op = .request r → l = rest) ∧ HostEffect s op u ∧
      hostTurn s = deliver u l rsp := by
  cases hhost : s.host with
  | nil => exact .inl (hostTurn_nil s hhost)
  | cons op rest =>
    obtain ⟨l, rsp, hturn, hl⟩ := hostTurn_cons s op rest hhost
    exact .inr ⟨op, rest, l, rsp, _, rfl, hl, hostEffect_transact s op, hturn⟩

/-- Settles O49: while busy no HOST operation is an idle write, and the other effects keep all but BUSYWR and the
draws. -/
theorem hostTurnWhileBusyKeepsState : Obligations.HostTurnWhileBusyKeepsState := by
  intro s t ts hb hturns h
  cases h.symm.trans (step_host s ts hturns)
  rcases hostTurn_cases (s.withTurns ts) with hturn | ⟨op, rest, l, rsp, u, _, _, heffect, hturn⟩
  · rw [hturn]
    exact ⟨rfl, id⟩
  · rw [hturn]
    cases heffect with
    | kept => exact ⟨rfl, id⟩
    | drawn => exact ⟨rfl, id⟩
    | lost _ _ _ _ => exact ⟨rfl, fun _ => rfl⟩
    | written _ _ _ _ hidle _ => exact absurd (hb.symm.trans hidle) (by decide)

/-- An idle write to a target other than CMD keeps what a command issue would change. -/
theorem idleWrite_keeps_status {x : Target} (s : State) (v : Word) (hx : x ≠ .reg .cmd) :
    (idleWrite s x v).status = s.status ∧ (idleWrite s x v).errcode = s.errcode ∧ (idleWrite s x v).bits = s.bits ∧
      (idleWrite s x v).pending = s.pending := by
  cases x with
  | word b w => simp [idleWrite]
  | reg r =>
    cases r with
    | cmd => exact absurd rfl hx
    | status | errcode | pixcnt | blen | tlen | bits => exact ⟨rfl, rfl, rfl, rfl⟩

/-- Settles O50: an idle machine's ENGINE does nothing, and of the HOST's effects only the write to CMD is an issue. -/
theorem idleStepIssuesOrKeepsStatus : Obligations.IdleStepIssuesOrKeepsStatus := by
  intro s t hb h hresets
  obtain ⟨ts, rfl | rfl | ⟨hbusy, _⟩ | rfl⟩ := step_next_cases h
  · rcases hostTurn_cases (s.withTurns ts) with hturn | ⟨op, rest, l, rsp, u, hhost, hl, heffect, hturn⟩
    · rw [hturn]
      exact .inl ⟨rfl, rfl, rfl, rfl⟩
    · rw [hturn]
      cases heffect with
      | kept => exact .inl ⟨rfl, rfl, rfl, rfl⟩
      | drawn => exact .inl ⟨rfl, rfl, rfl, rfl⟩
      | lost _ _ _ hbusy => exact absurd (hb.symm.trans hbusy) (by decide)
      | written r x hop hwr _ hx =>
        by_cases hcmd : x = .reg .cmd
        · subst hcmd
          obtain ⟨kind, o, v⟩ := r
          obtain rfl : kind = .wr := hwr
          obtain rfl := decodeOffset_eq_cmd _ _ hx
          obtain rfl := hl _ hop
          subst hop
          exact .inr ⟨v, hhost, rfl, rfl, rfl, rfl⟩
        · exact .inl (idleWrite_keeps_status (s.withTurns ts) r.wdata hcmd)
  · exact .inl ⟨rfl, rfl, rfl, rfl⟩
  · exact absurd (hb.symm.trans hbusy) (by decide)
  · exact absurd hresets (Nat.succ_ne_self _)

/-- Where BUSYWR is as it was, nothing is said of what sets or clears it. -/
theorem busywr_kept {s t : State} {P Q : Prop} (h : t.status.busywr = s.status.busywr) :
    (s.status.busywr = false → t.status.busywr = true → P) ∧
    (s.status.busywr = true → t.status.busywr = false → Q) := by
  rw [h]
  exact ⟨fun h0 h1 => absurd (h0.symm.trans h1) (by decide), fun h1 h0 => absurd (h1.symm.trans h0) (by decide)⟩

/-- Settles O51: of all that a step can be, a lost write sets BUSYWR, and an issue and a reset clear it. -/
theorem busywrSticky : Obligations.BusywrSticky := by
  intro s t h
  obtain ⟨ts, rfl | rfl | ⟨_, w, u, _, hrun, rfl⟩ | rfl⟩ := step_next_cases h
  · rcases hostTurn_cases (s.withTurns ts) with hturn | ⟨op, rest, l, rsp, u, hhost, _, heffect, hturn⟩
    · rw [hturn]
      exact busywr_kept rfl
    · rw [hturn]
      cases heffect with
      | kept => exact busywr_kept rfl
      | drawn => exact busywr_kept rfl
      | lost r hop hwr hb =>
        subst hop
        exact ⟨fun _ _ => ⟨hb, r, rest, hhost, hwr⟩, fun _ h0 => absurd h0 (by simp)⟩
      | written r x _ _ hb _ =>
        by_cases hcmd : x = .reg .cmd
        · subst hcmd
          exact ⟨fun _ h1 => absurd h1 (by simp [idleWrite]), fun _ _ => .inr ⟨hb, rfl⟩⟩
        · exact busywr_kept (congrArg Status.busywr (idleWrite_keeps_status (s.withTurns ts) r.wdata hcmd).1)
  · exact busywr_kept rfl
  · obtain ⟨_, _, _, hbusywr, _⟩ := runCommand_completes hrun
    exact busywr_kept hbusywr
  · exact ⟨fun _ h1 => absurd h1 (by simp [Status.reset]), fun _ _ => .inl rfl⟩

/-! ### What can change a memory byte -/

/-- A byte of PIX that a command changes is a color channel below PIXCNT. -/
theorem runCommand_pix_frame {w : Word} {s t : State} {a : Nat} (h : runCommand w s = .next t)
    (ha : t.byteAt .pix a ≠ s.byteAt .pix a) : a % 4 ≠ 3 ∧ a < 4 * s.pixcnt.toNat := by
  rcases runCommand_next_cases h with ⟨i, hexec⟩ | rfl
  · by_contra hout
    refine ha (exec_pix_frame hexec fun k hk hak => hout ?_)
    have hlt := carrierIndex_lt hk
    have halpha := carrierIndex_ne_alpha k (a / 4)
    omega
  · exact absurd (byteAt_finish ..) ha

/-- A byte that an idle write changes lies in the word that the offset names, and takes its part of the data. -/
theorem idleWrite_byteAt {s : State} {o : Offset} {x : Target} {v : Word} {b : Bank} {a : Nat}
    (hx : decodeOffset s.params o = some x) (ha : (idleWrite s x v).byteAt b a ≠ s.byteAt b a) :
    o.toNat = windowBase b + 4 * (a / 4) ∧ (idleWrite s x v).byteAt b a = v.extractLsb' (8 * (a % 4)) 8 := by
  cases x with
  | reg r =>
    refine absurd ?_ ha
    cases r <;> cases b <;> rfl
  | word b' w =>
    obtain ⟨hoffset, _⟩ := decodeOffset_eq_word _ _ _ _ hx
    have hin : b = b' ∧ 4 * w ≤ a ∧ a < 4 * w + 4 := by
      by_contra hout
      refine ha (byteAt_writeWord_outside s b' b w a v fun hb => ?_)
      by_contra hword
      exact hout ⟨hb, by omega, by omega⟩
    obtain ⟨rfl, hlow, hhigh⟩ := hin
    exact ⟨by omega, byteAt_writeWord_inside s b w a v hlow hhigh⟩

/-- Settles O52: of all that a step can be, the completion of a command, an idle write to a memory word and a reset
change bytes. -/
theorem memoryChangesOnlyBy : Obligations.MemoryChangesOnlyBy := by
  intro s t b a h ha
  obtain ⟨ts, rfl | rfl | ⟨hb, w, u, _, hrun, rfl⟩ | rfl⟩ := step_next_cases h
  · rcases hostTurn_cases (s.withTurns ts) with hturn | ⟨op, rest, l, rsp, u, hhost, _, heffect, hturn⟩
    · rw [hturn, byteAt_withTurns] at ha
      exact absurd rfl ha
    · rw [hturn, byteAt_deliver, ← byteAt_withTurns s ts] at ha
      rw [hturn, byteAt_deliver]
      cases heffect with
      | kept => exact absurd rfl ha
      | drawn => exact absurd (byteAt_congr _ _ _ _ rfl (bank_drawn ..)) ha
      | lost _ _ _ _ => exact absurd (byteAt_congr _ _ _ _ rfl (bank_lostWrite ..)) ha
      | written r x hop hwr hb hx =>
        subst hop
        obtain ⟨hoffset, hdata⟩ := idleWrite_byteAt hx ha
        exact .inr (.inr ⟨hb, r, rest, hhost, hwr, hoffset, hdata⟩)
  · exact absurd (byteAt_withTurns ..) ha
  · rw [byteAt_retire, ← byteAt_withTurns s ts] at ha
    refine .inr (.inl ⟨hb, (runCommand_completes hrun).1, ?_⟩)
    rintro rfl
    exact runCommand_pix_frame (s := s.withTurns ts) hrun ha
  · exact .inl rfl

end Sys2Proof.Proofs
end

section
/-! The invariant of the block (10_state.md R24 to R26, 42_extractor.md R146, 43_control.md R166): it holds after a
reset and every step keeps it. -/

namespace Sys2Proof.Proofs

open Sys2Proof Sys2Proof.Machine Sys2Proof.Laws

/-! ### The memories -/

/-- The part of the invariant about memories: canonical, and nothing written outside them. -/
def MemsOk (s : State) : Prop :=
  ∀ b, Mem.wf (s.bank b) = true ∧ Mem.below (Params.bankSize s.params b) (s.bank b) = true

theorem memsOk_of_inv {s : State} (h : s.Inv) : MemsOk s := fun b => ⟨h.mem_wf b, h.mem_bounds b⟩

theorem memsOk_congr {s t : State} (h : MemsOk s) (hparams : t.params = s.params) (hbank : ∀ b, t.bank b = s.bank b) :
    MemsOk t := by
  intro b
  rw [hparams, hbank]
  exact h b

theorem memsOk_setBank {s : State} {b : Bank} {m : Mem} (h : MemsOk s) (hwf : Mem.wf m = true)
    (hbelow : Mem.below (Params.bankSize s.params b) m = true) : MemsOk (s.setBank b m) := by
  intro b'
  rw [setBank_params]
  by_cases hb : b' = b
  · subst hb
    rw [bank_setBank_same]
    exact ⟨hwf, hbelow⟩
  · rw [bank_setBank_ne s b b' m hb]
    exact h b'

/-- Bytes written inside a memory keep the memories in order. -/
theorem memsOk_writeBytes {s : State} {b : Bank} {a : Nat} {vs : List Byte} (h : MemsOk s)
    (hfits : a + vs.length ≤ Params.bankSize s.params b) : MemsOk (s.writeBytes b a vs) :=
  memsOk_setBank h (wf_writeAll vs _ a (h b).1) (below_writeAll _ vs _ a hfits (h b).2)

/-- A successful EMBED writes carriers of the buffer only, which lies in PIX. -/
theorem memsOk_afterEmbed {s : State} (h : MemsOk s) (hpix : s.pixcnt.toNat ≤ s.params.maxPixels)
    (hroom : reqBits s.blen.toNat ≤ s.carriers) : MemsOk (afterEmbed s) := by
  have hset : MemsOk ((s.setBits (reqBits s.blen.toNat)).setBank .pix
      (Mem.embedFrom s.resets s.pix 0 (embedStream s))) := by
    refine memsOk_setBank (memsOk_congr h rfl (bank_setBits s _)) (wf_embedFrom _ _ _ 0 (h .pix).1)
      (below_embedFrom _ _ _ _ 0 (fun k hk => ?_) (h .pix).2)
    rw [embedStream_length, Nat.zero_add] at hk
    exact (carrierIndex_lt (hk.trans_le hroom)).trans_le (Nat.mul_le_mul_left 4 hpix)
  exact memsOk_congr hset rfl (bank_finish _ _)

/-- A command that ends with NONE writes inside the memories of a legal build (R7, 20_memory.md R58). -/
theorem memsOk_exec_success {i : Instr} {s t : State} (hlegal : s.params.Legal) (hs : MemsOk s)
    (h : exec i s = .next t) (he : t.errcode = .none) : MemsOk t := by
  cases i with
  | nop =>
    rw [exec_nop_writes h]
    exact memsOk_congr hs rfl (bank_finish s _)
  | embed =>
    obtain ⟨hpix, _, hroom, rfl⟩ := embed_success h he
    exact memsOk_afterEmbed hs hpix hroom
  | extract =>
    rcases execExtract_cases s with ⟨_, hexec⟩ | ⟨_, _, hexec⟩ |
      ⟨L, _, _, ⟨_, hexec⟩ | ⟨_, _, hexec⟩ | ⟨_, _, _, hexec⟩ | ⟨_, _, hfits, hexec⟩⟩ <;> cases h.symm.trans hexec
    · cases he
    · cases he
    · cases he
    · cases he
    · cases he
    · have hwrite : MemsOk ((s.setBits L).writeBytes .bytes 0 (b64Dec (charsOf s.lsb (L - 16)))) :=
        memsOk_writeBytes (memsOk_congr hs rfl (bank_setBits s _)) (by rwa [Nat.zero_add])
      exact memsOk_congr hwrite rfl fun b => by rw [bank_finish, bank_setXState, bank_setBlen]
  | tenc =>
    rcases execTenc_cases s with ⟨_, hexec⟩ | ⟨hbytes, hexec⟩ <;> cases h.symm.trans hexec
    · cases he
    · have hwrite : MemsOk (s.writeBytes .text 0 (b64Enc s.message)) :=
        memsOk_writeBytes hs (by rw [Nat.zero_add]; exact b64Enc_message_fits hlegal hbytes)
      exact memsOk_congr hwrite rfl fun b => by rw [bank_finish, bank_setTlen]
  | tdec =>
    rcases execTdec_cases s with ⟨_, hexec⟩ | ⟨_, _, hexec⟩ | ⟨htext, hvalid, hexec⟩ <;> cases h.symm.trans hexec
    · cases he
    · cases he
    · have hwrite : MemsOk (s.writeBytes .bytes 0 (b64Dec s.textIn)) :=
        memsOk_writeBytes hs (by rw [Nat.zero_add]; exact b64Dec_textIn_fits hlegal htext hvalid)
      exact memsOk_congr hwrite rfl fun b => by rw [bank_finish, bank_setBlen]

/-- Every run command keeps the memories in order: one that ends with an error leaves them alone. -/
theorem memsOk_runCommand {w : Word} {s t : State} (hlegal : s.params.Legal) (hs : MemsOk s)
    (h : runCommand w s = .next t) : MemsOk t := by
  rcases runCommand_next_cases h with ⟨i, hexec⟩ | rfl
  · by_cases he : t.errcode = .none
    · exact memsOk_exec_success hlegal hs hexec he
    · obtain ⟨hpix, hbytes, htext, _, _⟩ := errorsLeaveOutputsUnchanged i s t hexec he
      obtain ⟨_, _, _, _, hparams, _⟩ := runCommand_completes h
      refine memsOk_congr hs hparams fun b => ?_
      cases b
      · exact hpix
      · exact hbytes
      · exact htext
  · exact memsOk_congr hs rfl (bank_finish s _)

/-- An idle write reaches a whole word inside a memory, whose size is a number of words. -/
theorem memsOk_idleWrite {s : State} {o : Offset} {x : Target} (v : Word) (hlegal : s.params.Legal) (hs : MemsOk s)
    (hx : decodeOffset s.params o = some x) : MemsOk (idleWrite s x v) := by
  cases x with
  | reg r => exact memsOk_congr hs (idleWrite_outside s _ v).1 fun b => by cases r <;> cases b <;> rfl
  | word b w =>
    obtain ⟨_, hw⟩ := decodeOffset_eq_word _ _ _ _ hx
    obtain ⟨_, _, _, hbytes, htext⟩ := windows_fit_of_legal hlegal
    have hsize : Params.bankSize s.params b % 4 = 0 := by
      cases b
      · exact Nat.mul_mod_right 4 _
      · exact hbytes
      · exact htext
    refine memsOk_writeBytes hs ?_
    simp only [wordBytes, List.length_cons, List.length_nil]
    omega

/-! ### XSTATE and ERRCODE -/

/-- The part of the invariant about XSTATE: settled, and in step with ERRCODE (R146). -/
abbrev StageAgrees (x : XState) (e : ErrCode) : Prop :=
  x.settled = true ∧ (x = .exhausted ↔ e = .sentinelNotFound) ∧ (x = .done → e = .none) ∧
    (x = .failed → e = .malformedPayload ∨ e = .lengthInvalid)

theorem stageAgrees_idle {e : ErrCode} (he : e ≠ .sentinelNotFound) : StageAgrees .idle e := by
  cases e with
  | sentinelNotFound => exact absurd rfl he
  | none | capacityExceeded | malformedPayload | illegalCommand | lengthInvalid => decide

/-- Each end of EXTRACT leaves the XSTATE of its code (R146, R147). -/
theorem stageAgrees_extract {s t : State} (h : exec .extract s = .next t) :
    StageAgrees t.status.xstate t.errcode := by
  rcases execExtract_cases s with ⟨_, hexec⟩ | ⟨_, _, hexec⟩ |
    ⟨L, _, _, ⟨_, hexec⟩ | ⟨_, _, hexec⟩ | ⟨_, _, _, hexec⟩ | ⟨_, _, _, hexec⟩⟩ <;> cases h.symm.trans hexec
  · exact (by decide : StageAgrees .failed .lengthInvalid)
  · exact (by decide : StageAgrees .exhausted .sentinelNotFound)
  · exact (by decide : StageAgrees .failed .malformedPayload)
  · exact (by decide : StageAgrees .failed .malformedPayload)
  · exact (by decide : StageAgrees .failed .lengthInvalid)
  · exact (by decide : StageAgrees .done .none)

/-- Only EXTRACT ends with SENTINEL_NOT_FOUND (60_exceptions.md R200). -/
theorem errcode_ne_sentinelNotFound {i : Instr} {s t : State} (h : exec i s = .next t) (hi : i ≠ .extract) :
    t.errcode ≠ .sentinelNotFound := by
  obtain ⟨hnop, hembed, _, htenc, htdec⟩ := completionCodes i s t h
  intro he
  cases i with
  | nop => simp [he] at hnop
  | embed => simp [he] at hembed
  | extract => exact hi rfl
  | tenc => simp [he] at htenc
  | tdec => simp [he] at htdec

/-- From the XSTATE that an issue leaves, every run command ends with XSTATE and ERRCODE in step. -/
theorem stageAgrees_runCommand {w : Word} {s t : State} (hidle : s.status.xstate = .idle)
    (h : runCommand w s = .next t) : StageAgrees t.status.xstate t.errcode := by
  rcases runCommand_next_cases h with ⟨i, hexec⟩ | rfl
  · by_cases hi : i = .extract
    · subst hi
      exact stageAgrees_extract hexec
    · obtain ⟨_, _, _, _, hxstate, _⟩ := commandsWriteOnlyTheirOutputs i s t hexec
      rw [hxstate hi, hidle]
      exact stageAgrees_idle (errcode_ne_sentinelNotFound hexec hi)
  · rw [finish_status, status_finish_xstate, hidle]
    exact stageAgrees_idle (by simp)

/-! ### The invariant, update by update -/

/-- The invariant from its parts, for an idle block. -/
theorem inv_of_idle {s : State} (hlegal : s.params.Legal) (hbusy : s.status.busy = false) (hpending : s.pending = none)
    (herr : s.status.err = decide (s.errcode ≠ .none)) (hdone : s.status.err = true → s.status.done = true)
    (hstage : StageAgrees s.status.xstate s.errcode) (hmem : MemsOk s) : s.Inv where
  legal := hlegal
  busy_iff_pending := by rw [hbusy, hpending]; rfl
  busy_clear := fun hb => by simp [hbusy] at hb
  busy_cleared := fun hb => by simp [hbusy] at hb
  err_iff := herr
  err_done := hdone
  xstate_settled := hstage.1
  exhausted_iff := hstage.2.1
  xdone_noError := hstage.2.2.1
  failed_error := hstage.2.2.2
  mem_wf := fun b => (hmem b).1
  mem_bounds := fun b => (hmem b).2

/-- An update of anything but the build, STATUS without BUSYWR, ERRCODE and PENDING keeps the invariant where it keeps
the memories in order. -/
theorem inv_of_same_registers {s t : State} (hs : s.Inv) (hparams : t.params = s.params)
    (hstatus : t.status = { s.status with busywr := t.status.busywr }) (herrcode : t.errcode = s.errcode)
    (hpending : t.pending = s.pending) (hmem : MemsOk t) : t.Inv where
  legal := by rw [hparams]; exact hs.legal
  busy_iff_pending := by rw [hstatus, hpending]; exact hs.busy_iff_pending
  busy_clear := by rw [hstatus]; exact hs.busy_clear
  busy_cleared := by rw [hstatus, herrcode]; exact hs.busy_cleared
  err_iff := by rw [hstatus, herrcode]; exact hs.err_iff
  err_done := by rw [hstatus]; exact hs.err_done
  xstate_settled := by rw [hstatus]; exact hs.xstate_settled
  exhausted_iff := by rw [hstatus, herrcode]; exact hs.exhausted_iff
  xdone_noError := by rw [hstatus, herrcode]; exact hs.xdone_noError
  failed_error := by rw [hstatus, herrcode]; exact hs.failed_error
  mem_wf := fun b => (hmem b).1
  mem_bounds := fun b => (hmem b).2

theorem inv_withTurns {s : State} (hs : s.Inv) (ts : List Turn) : (s.withTurns ts).Inv :=
  inv_of_same_registers hs rfl rfl rfl rfl (memsOk_congr (memsOk_of_inv hs) rfl (bank_withTurns s ts))

theorem inv_deliver {s : State} (hs : s.Inv) (rest : List HostOp) (rsp : Response) : (deliver s rest rsp).Inv :=
  inv_of_same_registers hs rfl rfl rfl rfl (memsOk_congr (memsOk_of_inv hs) rfl (bank_deliver s rest rsp))

/-- A command issue makes the block busy with the word pending, and clears what belongs to the last command (R160). -/
theorem inv_issue {s : State} (hs : s.Inv) (w : Word) : (issue s w).Inv where
  legal := hs.legal
  busy_iff_pending := rfl
  busy_clear := fun _ => ⟨rfl, rfl⟩
  busy_cleared := fun _ => ⟨rfl, rfl⟩
  err_iff := rfl
  err_done := fun herr => by simp at herr
  xstate_settled := rfl
  exhausted_iff := by simp
  xdone_noError := fun _ => rfl
  failed_error := fun hfailed => by simp at hfailed
  mem_wf := fun b => by rw [bank_issue]; exact hs.mem_wf b
  mem_bounds := fun b => by rw [bank_issue]; exact hs.mem_bounds b

/-- After a reset of a legal build (R230): every register is 0 and no byte is written. -/
theorem inv_of_reset_values {s : State} (hlegal : s.params.Legal) (hstatus : s.status = Status.reset)
    (herrcode : s.errcode = .none) (hpending : s.pending = none) (hbank : ∀ b, s.bank b = []) : s.Inv := by
  refine inv_of_idle hlegal (by rw [hstatus]; rfl) hpending (by rw [hstatus, herrcode]; rfl) ?_ ?_ fun b => ?_
  · rw [hstatus]
    exact fun herr => by simp [Status.reset] at herr
  · rw [hstatus, herrcode]
    decide
  · rw [hbank]
    exact ⟨rfl, rfl⟩

/-- Settles O45: the reset state has the reset values, in the default build. -/
theorem invHoldsAtReset : Obligations.InvHoldsAtReset :=
  inv_of_reset_values (by decide) rfl rfl rfl fun b => by cases b <;> rfl

/-! ### The invariant, step by step -/

theorem inv_hostEffect {s u : State} {op : HostOp} (hs : s.Inv) (h : HostEffect s op u) : u.Inv := by
  have hmem := memsOk_of_inv hs
  cases h with
  | kept => exact hs
  | drawn => exact inv_of_same_registers hs rfl rfl rfl rfl (memsOk_congr hmem rfl (bank_drawn s))
  | lost _ _ _ _ => exact inv_of_same_registers hs rfl rfl rfl rfl (memsOk_congr hmem rfl (bank_lostWrite s))
  | written r x _ _ _ hx =>
    by_cases hcmd : x = .reg .cmd
    · subst hcmd
      exact inv_issue hs r.wdata
    · obtain ⟨hstatus, herrcode, _, hpending⟩ := idleWrite_keeps_status s r.wdata hcmd
      exact inv_of_same_registers hs (idleWrite_outside s x _).1 (by rw [hstatus]) herrcode hpending
        (memsOk_idleWrite r.wdata hs.legal hmem hx)

theorem inv_hostTurn {s : State} (hs : s.Inv) : (hostTurn s).Inv := by
  rcases hostTurn_cases s with hturn | ⟨op, rest, l, rsp, u, _, _, heffect, hturn⟩
  · rwa [hturn]
  · rw [hturn]
    exact inv_deliver (inv_hostEffect hs heffect) l rsp

/-- The completion of the pending command (R12, R166): XSTATE was IDLE since the issue. -/
theorem inv_retire_runCommand {w : Word} {s u : State} (hs : s.Inv) (hb : s.status.busy = true)
    (h : runCommand w s = .next u) : (retire u).Inv := by
  obtain ⟨hbusy, hdone, herr, _, hparams, _⟩ := runCommand_completes h
  have hmem := memsOk_runCommand hs.legal (memsOk_of_inv hs) h
  exact inv_of_idle (by rw [retire_params, hparams]; exact hs.legal) hbusy rfl herr (fun _ => hdone)
    (stageAgrees_runCommand (t := u) (hs.busy_cleared hb).2 h) (memsOk_congr hmem rfl (bank_retire u))

/-- Settles O46: each of the things a step can be keeps the invariant. -/
theorem stepKeepsInv : Obligations.StepKeepsInv := by
  intro s t hs h
  obtain ⟨ts, rfl | rfl | ⟨hb, w, u, _, hrun, rfl⟩ | rfl⟩ := step_next_cases h
  · exact inv_hostTurn (inv_withTurns hs ts)
  · exact inv_withTurns hs ts
  · exact inv_retire_runCommand (inv_withTurns hs ts) hb hrun
  · exact inv_of_reset_values hs.legal rfl rfl rfl fun b => bank_resetBlock _ b

end Sys2Proof.Proofs
end

section
/-! Progress under every list of turns (70_reset_and_hazards.md R240, R233): a pending command completes, and a WAIT
loop ends. -/

namespace Sys2Proof.Proofs

open Sys2Proof Sys2Proof.Machine Sys2Proof.Laws

/-- A run of a machine, taken apart at its first step. -/
theorem core_run_succ {M : Host.Core} {s t : M.State} (h : M.step s = .next t) (n : Nat) :
    M.run (n + 1) s = M.run n t := by
  rw [Host.Core.run, h]

theorem run_succ_of_step {s t : State} (h : step s = .next t) (n : Nat) :
    Host.Core.run Sys2Proof.core (n + 1) s = Host.Core.run Sys2Proof.core n t :=
  core_run_succ (M := Sys2Proof.core) h n

theorem run_one_of_step {s t : State} (h : step s = .next t) : Host.Core.run Sys2Proof.core 1 s = .next t :=
  run_succ_of_step h 0

/-- The ENGINE's turn while busy completes the pending command (R166). -/
theorem engineTurn_completes {s : State} (hs : s.Inv) (hb : s.status.busy = true) :
    ∃ t, engineTurn s = .next t ∧ t.status.busy = false ∧ t.pending = none ∧ t.status.done = true ∧ t.host = s.host ∧
      t.turns = s.turns := by
  rcases engineTurn_outcome s with ⟨hidle | hnone, _⟩ | ⟨_, w, u, _, hrun, hend⟩
  · exact absurd (hb.symm.trans hidle) (by decide)
  · have hpending := hs.busy_iff_pending
    simp [hb, hnone] at hpending
  · obtain ⟨hbusy, hdone, _, _, _, _, hhost, hturns⟩ := runCommand_completes hrun
    exact ⟨_, hend, hbusy, rfl, hdone, hhost, hturns⟩

/-- Settles O47, by induction on the turns laid down: a HOST's turn leaves the block busy, the ENGINE's completes the
command, a reset abandons it, and where none is laid down the ENGINE moves. -/
theorem pendingCommandCompletes : Obligations.PendingCommandCompletes := by
  intro s hs hb
  induction hturns : s.turns generalizing s with
  | nil =>
    obtain ⟨t, hend, hbusy, hpending, hdone, _⟩ := engineTurn_completes hs hb
    exact ⟨1, t, by simp, run_one_of_step ((step_nil_busy s hturns hb).trans hend), hbusy, hpending, fun _ => hdone⟩
  | cons turn ts ih =>
    cases turn with
    | engine =>
      obtain ⟨t, hend, hbusy, hpending, hdone, _⟩ := engineTurn_completes (inv_withTurns hs ts) hb
      exact ⟨1, t, by simp, run_one_of_step ((step_engine s ts hturns).trans hend), hbusy, hpending, fun _ => hdone⟩
    | reset =>
      exact ⟨1, _, by simp, run_one_of_step (step_reset s ts hturns), rfl, rfl, fun hno => absurd (by simp) hno⟩
    | host =>
      have hstep := step_host s ts hturns
      obtain ⟨hframe, _⟩ := hostTurnWhileBusyKeepsState s _ ts hb hturns hstep
      obtain ⟨n, t, hn, hrun, hbusy, hpending, hdone⟩ := ih _ (stepKeepsInv s _ hs hstep)
        (by rw [hframe]; exact hb) (by rw [hframe])
      exact ⟨n + 1, t, by simpa using hn, (run_succ_of_step hstep n).trans hrun, hbusy, hpending,
        fun hno => hdone fun hreset => hno (List.mem_cons_of_mem _ hreset)⟩

/-- Whatever turn is laid down, a WAIT that is first is over or is still first. -/
theorem step_keeps_or_ends_wait {s : State} {turn : Turn} {ts : List Turn} {rest : List HostOp} (hs : s.Inv)
    (hturns : s.turns = turn :: ts) (hhost : s.host = .wait :: rest) :
    ∃ t, step s = .next t ∧ t.turns = ts ∧ (t.host = rest ∨ t.host = .wait :: rest) := by
  cases turn with
  | host =>
    refine ⟨_, (step_host s ts hturns).trans (congrArg _ (hostTurn_wait (s.withTurns ts) rest hhost)), ?_, ?_⟩
    · rcases hostRead_state (s.withTurns ts) statusOffset with h | h <;> rw [deliver_turns, h] <;> rfl
    · rw [deliver_host]
      split
      · exact .inr rfl
      · exact .inl rfl
  | engine =>
    rw [step_engine s ts hturns]
    cases hb : s.status.busy with
    | false => exact ⟨_, engineTurn_idle (s.withTurns ts) hb, rfl, .inr hhost⟩
    | true =>
      obtain ⟨t, hend, _, _, _, hkept, hturns'⟩ := engineTurn_completes (inv_withTurns hs ts) hb
      exact ⟨t, hend, hturns', .inr (hkept.trans hhost)⟩
  | reset => exact ⟨_, step_reset s ts hturns, rfl, .inr hhost⟩

/-- With no turn laid down and the block idle, the next step ends the WAIT. -/
theorem step_ends_wait_of_idle {s : State} {rest : List HostOp} (hturns : s.turns = []) (hb : s.status.busy = false)
    (hhost : s.host = .wait :: rest) : ∃ t, step s = .next t ∧ t.host = rest := by
  obtain ⟨t, _, hstep, _, _, hend, _⟩ := waitRepeatsWhileBusy s rest [] (.inr ⟨hturns, rfl, hb⟩) hhost
  exact ⟨t, hstep, by simpa [hb] using hend⟩

/-- Settles O48, by induction on the turns laid down; where none is laid down the ENGINE completes what is pending, and
the WAIT's next read finds the block idle. -/
theorem waitLoopEnds : Obligations.WaitLoopEnds := by
  intro s rest hs hhost
  induction hturns : s.turns generalizing s with
  | nil =>
    cases hb : s.status.busy with
    | false =>
      obtain ⟨t, hstep, hend⟩ := step_ends_wait_of_idle hturns hb hhost
      exact ⟨1, t, by simp, run_one_of_step hstep, hend⟩
    | true =>
      obtain ⟨u, hcomplete, hbusy, _, _, hkept, hturns'⟩ := engineTurn_completes hs hb
      obtain ⟨t, hstep, hend⟩ := step_ends_wait_of_idle (hturns'.trans hturns) hbusy (hkept.trans hhost)
      exact ⟨2, t, by simp, (run_succ_of_step ((step_nil_busy s hturns hb).trans hcomplete) 1).trans
        (run_one_of_step hstep), hend⟩
  | cons turn ts ih =>
    obtain ⟨u, hstep, hturns', hend | hkept⟩ := step_keeps_or_ends_wait hs hturns hhost
    · exact ⟨1, u, by simp, run_one_of_step hstep, hend⟩
    · obtain ⟨n, t, hn, hrun, hend⟩ := ih u (stepKeepsInv s u hs hstep) hkept hturns'
      exact ⟨n + 1, t, by simp only [List.length_cons]; omega, (run_succ_of_step hstep n).trans hrun, hend⟩

end Sys2Proof.Proofs
end
